-- ==== Sys2Proof/Word.lean ====
section
/-! DEFINITION. The widths of RMD160 CORE: byte, word, 64-bit counter, 64-byte block (00_scope.md R4, R6, R7). -/

namespace Sys2Proof

/-- A byte: an 8-bit unsigned integer (R6). -/
abbrev Byte := BitVec 8

/-- A word: a 32-bit unsigned integer (R6). -/
abbrev Word := BitVec 32

/-- A 64-bit unsigned integer, the width of the Engine-160 byte counter (R5, R20). -/
abbrev Dword := BitVec 64

/-- A byte string (R7): element 0 is the first byte received or produced. -/
abbrev Bytes := List Byte

/-- A block: 64 bytes, the size of a staging buffer and of what one compression consumes (R4, R36). -/
abbrev Block := Vector Byte 64

end Sys2Proof
end

