-- ==== Sys2Proof/Machine/Bits.lean ====
section
/-! DEFINITION. Rotation (00_scope.md R11) and byte order (20_memory.md R32 to R35): every multi-byte quantity is
little-endian. -/

namespace Sys2Proof.Machine

/-- `rol(a, n)` for 1 ≤ n ≤ 31 (R11); every rotation amount of this hardware is in 5 .. 15. -/
def rol (a : Word) (n : Nat) : Word := (a <<< n) ||| (a >>> (32 - n))

/-- `LE32(s, i) = s[i] + 2^8·s[i+1] + 2^16·s[i+2] + 2^24·s[i+3]` (R33). The rule asks i + 3 < |s|, and no rule reads
beyond the string; there the missing bytes count as 0 so that the function is total (DESIGN CHOICE, log 15, safe). -/
def le32 (s : Bytes) (i : Nat) : Word :=
  BitVec.ofNat 32 ((s.getD i 0).toNat + 2 ^ 8 * (s.getD (i + 1) 0).toNat
    + 2 ^ 16 * (s.getD (i + 2) 0).toNat + 2 ^ 24 * (s.getD (i + 3) 0).toNat)

/-- `ST32LE(v)`: the bytes `v[7:0], v[15:8], v[23:16], v[31:24]` in that order (R34). -/
def st32le (v : Word) : Bytes :=
  [v.extractLsb' 0 8, v.extractLsb' 8 8, v.extractLsb' 16 8, v.extractLsb' 24 8]

/-- `ST64LE(v)`: byte `k` is `v[8k+7 : 8k]`, k = 0..7 (R35). -/
def st64le (v : Dword) : Bytes :=
  (List.range 8).map fun k => v.extractLsb' (8 * k) 8

/-- `0^n`, n bytes of value 0x00 (R7). -/
def zeros (n : Nat) : Bytes := List.replicate n 0x00

/-- Consecutive words, each stored by `ST32LE` (R34): how a chaining state becomes a digest (R95, R101). -/
def storeWords (ws : List Word) : Bytes := ws.flatMap st32le

end Sys2Proof.Machine
end

