-- ==== Sys2Proof/Config.lean ====
section
/-! DEFINITION. What an implementation of RMD160 CORE fixes (00_scope.md R5), and the free values: register contents the
spec leaves unspecified after FINAL and after a reset event (10_state.md R31, 42_streaming.md R108; log 5 and 6). -/

namespace Sys2Proof

/-- The parameters of one instance that are fixed for its life (R5, R58). `N_INSTANCES` belongs to a platform
(Sys2Proof/Machine/Platform.lean). -/
structure Params where
  /-- `HMAC160_PRESENT`: whether opcode 0x13 is RMD160.HMAC or reserved (R58, R116). -/
  hmac160Present : Bool
  deriving DecidableEq, Repr

/-- The default of R5: `HMAC160_PRESENT` = false. -/
def Config.defaultParams : Params := ⟨false⟩

/-- `MAXLEN`, the largest operand length in one command: 2^32 − 1 bytes (R5, R50). -/
def Config.maxLen : Nat := 2 ^ 32 - 1

/-! DESIGN CHOICE (log 5, log 6), safe: a register the spec calls unspecified after FINAL or after a reset event holds a
free value. Each constant below has no body, so nothing can be proved about what it answers. The argument is State's
plain counter `freeCount` at the moment the registers become unspecified. -/

/-- The unspecified chaining words of Engine-160. -/
opaque Config.freeH160 : Nat → Vector Word 5
/-- The unspecified buffer bytes of Engine-160. -/
opaque Config.freeBuf160 : Nat → Block
/-- The unspecified fill count of Engine-160. -/
opaque Config.freeFill160 : Nat → BitVec 7
/-- The unspecified byte counter of Engine-160. -/
opaque Config.freeLen160 : Nat → Dword
/-- The unspecified chaining words of Engine-320. -/
opaque Config.freeH320 : Nat → Vector Word 10
/-- The unspecified buffer bytes of Engine-320. -/
opaque Config.freeBuf320 : Nat → Block
/-- The unspecified fill count of Engine-320. -/
opaque Config.freeFill320 : Nat → BitVec 7
/-- The unspecified low counter word of Engine-320. -/
opaque Config.freeLenLo320 : Nat → Word
/-- The unspecified high counter word of Engine-320. -/
opaque Config.freeLenHi320 : Nat → Word

end Sys2Proof
end

