-- ==== Sys2Proof/Syntax.lean ====
section
/-! DEFINITION. The nine commands of RMD160 CORE with their operands: one constructor per row of spec/opcode_table.json
(30_encoding.md R55). -/

namespace Sys2Proof

/-- A decoded command. An operand is a byte string of 0 to `MAXLEN` bytes (20_memory.md R40); its length is checked in
WellFormed.lean. -/
inductive Instr where
  /-- 0x10 `RMD160.INIT` (R90). -/
  | rmd160Init
  /-- 0x11 `RMD160.UPDATE data` (R91). -/
  | rmd160Update (data : Bytes)
  /-- 0x12 `RMD160.FINAL` (R93). -/
  | rmd160Final
  /-- 0x13 `RMD160.HMAC key, msg`, defined only when `HMAC160_PRESENT` (R116). -/
  | rmd160Hmac (key msg : Bytes)
  /-- 0x20 `RMD320.INIT` (R96). -/
  | rmd320Init
  /-- 0x21 `RMD320.UPDATE data` (R97). -/
  | rmd320Update (data : Bytes)
  /-- 0x22 `RMD320.FINAL` (R99). -/
  | rmd320Final
  /-- 0x23 `RMD320.HMAC key, msg` (R114). -/
  | rmd320Hmac (key msg : Bytes)
  /-- 0x30 `HEX data` (R120). -/
  | hex (data : Bytes)
  deriving DecidableEq, Repr

/-- The operands of a command, in frame order (R51). -/
def Instr.operands : Instr → List Bytes
  | .rmd160Init => []
  | .rmd160Update data => [data]
  | .rmd160Final => []
  | .rmd160Hmac key msg => [key, msg]
  | .rmd320Init => []
  | .rmd320Update data => [data]
  | .rmd320Final => []
  | .rmd320Hmac key msg => [key, msg]
  | .hex data => [data]

end Sys2Proof
end

