-- ==== Sys2Proof/WellFormed.lean ====
section
/-! DEFINITION. Which commands a request frame can carry: every operand at most `MAXLEN` bytes long (30_encoding.md R50),
and RMD160.HMAC only when the instance has it (R58). -/

namespace Sys2Proof

/-- R50: an operand's length is a value in 0 .. 2^32 − 1 = `MAXLEN`. -/
def operandFits (data : Bytes) : Bool := data.length ≤ Config.maxLen

/-- Every operand of the command fits its 32-bit length word (R50). -/
def Instr.wellFormed : Instr → Bool
  | .rmd160Init => true
  | .rmd160Update data => operandFits data
  | .rmd160Final => true
  | .rmd160Hmac key msg => operandFits key && operandFits msg
  | .rmd320Init => true
  | .rmd320Update data => operandFits data
  | .rmd320Final => true
  | .rmd320Hmac key msg => operandFits key && operandFits msg
  | .hex data => operandFits data

/-- R58: RMD160.HMAC exists exactly when `HMAC160_PRESENT`; every other command always exists. -/
def Instr.present (p : Params) : Instr → Bool
  | .rmd160Init => true
  | .rmd160Update _ => true
  | .rmd160Final => true
  | .rmd160Hmac _ _ => p.hmac160Present
  | .rmd320Init => true
  | .rmd320Update _ => true
  | .rmd320Final => true
  | .rmd320Hmac _ _ => true
  | .hex _ => true

end Sys2Proof
end

