-- ==== Sys2Proof/Decode.lean ====
section
/-! DEFINITION. Request frames: the decoder, total on every byte string and rejecting by name (30_encoding.md R48 to R59),
then the encoder (R49) and the host's view of one opcode-table word. -/

namespace Sys2Proof

open Sys2Proof.Machine

/-- Why a byte string is no well-formed frame: the causes (a) to (e) of R57. All five answer the same response
(60_exceptions.md R126, R129). -/
inductive DecodeError where
  /-- (a) the frame is empty. -/
  | emptyFrame
  /-- (b) byte 0 is reserved (R56), 0x13 without `HMAC160_PRESENT` included (R58). -/
  | reservedOpcode (op : Byte)
  /-- (c) the frame ends before a length word is complete. -/
  | truncatedLength
  /-- (d) the frame ends before an operand's data is complete. -/
  | truncatedData
  /-- (e) bytes remain after the last field. -/
  | trailingBytes
  deriving DecidableEq, Repr

/-- One operand field at the front of `bs`: a 4-byte little-endian length, then that many bytes (R50). Answers the data
and what follows the field. -/
def takeField (bs : Bytes) : Except DecodeError (Bytes × Bytes) :=
  if bs.length < 4 then .error .truncatedLength
  else if (bs.drop 4).length < (le32 bs 0).toNat then .error .truncatedData
  else .ok ((bs.drop 4).take (le32 bs 0).toNat, (bs.drop 4).drop (le32 bs 0).toNat)

/-- Format F0 (R51): nothing after the opcode. -/
def decodeF0 (i : Instr) (rest : Bytes) : Except DecodeError Instr :=
  if rest = [] then .ok i else .error .trailingBytes

/-- Format F1 (R51): one field `data`, then nothing. -/
def decodeF1 (mk : Bytes → Instr) (rest : Bytes) : Except DecodeError Instr :=
  match takeField rest with
  | .error e => .error e
  | .ok (data, after) => if after = [] then .ok (mk data) else .error .trailingBytes

/-- Format F2 (R51): the fields `key` and `msg` in that order, then nothing. -/
def decodeF2 (mk : Bytes → Bytes → Instr) (rest : Bytes) : Except DecodeError Instr :=
  match takeField rest with
  | .error e => .error e
  | .ok (key, after) =>
    match takeField after with
    | .error e => .error e
    | .ok (msg, last) => if last = [] then .ok (mk key msg) else .error .trailingBytes

/-- The decoder (R49, R55 to R58). It depends on no state, only on the instance's fixed parameter (R59). -/
def decode (p : Params) (frame : Bytes) : Except DecodeError Instr :=
  match frame with
  | [] => .error .emptyFrame
  | op :: rest =>
    if op = 0x10 then decodeF0 .rmd160Init rest
    else if op = 0x11 then decodeF1 .rmd160Update rest
    else if op = 0x12 then decodeF0 .rmd160Final rest
    else if op = 0x13 then
      (if p.hmac160Present then decodeF2 .rmd160Hmac rest else .error (.reservedOpcode op))
    else if op = 0x20 then decodeF0 .rmd320Init rest
    else if op = 0x21 then decodeF1 .rmd320Update rest
    else if op = 0x22 then decodeF0 .rmd320Final rest
    else if op = 0x23 then decodeF2 .rmd320Hmac rest
    else if op = 0x30 then decodeF1 .hex rest
    else .error (.reservedOpcode op)

/-- `field_i = n_i (4 bytes, little-endian) ‖ data_i` (R49). -/
def encodeField (data : Bytes) : Bytes := st32le (BitVec.ofNat 32 data.length) ++ data

/-- The opcode of a command (R55). -/
def Instr.opcode : Instr → Byte
  | .rmd160Init => 0x10
  | .rmd160Update _ => 0x11
  | .rmd160Final => 0x12
  | .rmd160Hmac _ _ => 0x13
  | .rmd320Init => 0x20
  | .rmd320Update _ => 0x21
  | .rmd320Final => 0x22
  | .rmd320Hmac _ _ => 0x23
  | .hex _ => 0x30

/-- The encoder: `frame = opcode ‖ field_1 ‖ ... ‖ field_k` (R49). -/
def encode (i : Instr) : Bytes := i.opcode :: i.operands.flatMap encodeField

/-! The host's view of the opcode table: a word whose bit 0 is the least significant bit of the first byte. -/

/-- `bs` with bytes 0x00 after it, up to `n` bytes in all. -/
def padTo (n : Nat) (bs : Bytes) : Bytes := bs ++ zeros (n - bs.length)

/-- How many operand fields follow an opcode (R51); none where it is reserved. -/
def fieldCount (op : Byte) : Nat :=
  if op = 0x11 ∨ op = 0x21 ∨ op = 0x30 then 1
  else if op = 0x13 ∨ op = 0x23 then 2
  else 0

/-- A frame whose last bits are missing, completed with zeros: `k` fields from offset `at_` on, each with the length word
that stands there once the length words themselves are filled up with zeros. -/
def completeFields : Nat → Nat → Bytes → Bytes
  | 0, _, bs => bs
  | k + 1, at_, bs =>
    completeFields k (at_ + 4 + (le32 (padTo (at_ + 4) bs) at_).toNat)
      (padTo (at_ + 4 + (le32 (padTo (at_ + 4) bs) at_).toNat) (padTo (at_ + 4) bs))

/-- The bytes of the instruction whose low `nbits` bits are `w`, every higher bit 0, as they stand in a frame. -/
def tableFrame (nbits w : Nat) : Bytes :=
  completeFields (fieldCount (BitVec.ofNat 8 w)) 1
    ((List.range (nbits / 8)).map fun k => BitVec.ofNat 8 (w / 2 ^ (8 * k)))

/-- The instruction the decoder reads from an opcode-table word. The row 0x13 stands under the table's condition
`HMAC160_PRESENT`, so the parameter is true here (log 3). -/
def decodeTableWord (nbits w : Nat) : Option Instr :=
  match decode ⟨true⟩ (tableFrame nbits w) with
  | .ok i => some i
  | .error _ => none

end Sys2Proof
end

