-- ==== Sys2Proof/Machine/Tables.lean ====
section
/-! DEFINITION. The fixed data of the two compression engines, immutable and indexed by (round, step): boolean functions
(40_compress160.md R65 to R69), round constants (R70), message-word indices (R71, R72), rotation amounts (R73, R74), and
the initial chaining values (10_state.md R16, R22). -/

namespace Sys2Proof.Machine

/-- R65. -/
def f1 (x y z : Word) : Word := x ^^^ y ^^^ z
/-- R66: bitwise "if x then y else z". -/
def f2 (x y z : Word) : Word := (x &&& y) ||| (~~~x &&& z)
/-- R67. -/
def f3 (x y z : Word) : Word := (x ||| ~~~y) ^^^ z
/-- R68: bitwise "if z then x else y". -/
def f4 (x y z : Word) : Word := (x &&& z) ||| (y &&& ~~~z)
/-- R69. -/
def f5 (x y z : Word) : Word := x ^^^ (y ||| ~~~z)

/-- The left line's function in round q: f1, f2, f3, f4, f5 for q = 0 .. 4 (R76). -/
def leftFunction (q : Nat) : Word → Word → Word → Word :=
  match q with
  | 0 => f1
  | 1 => f2
  | 2 => f3
  | 3 => f4
  | _ => f5

/-- The right line's function in round q: the left line's order reversed, f_{5−q} (R77; 90_conflicts.md C3). -/
def rightFunction (q : Nat) : Word → Word → Word → Word := leftFunction (4 - q)

/-- `K[q]` (R70, left). -/
def constLeft : Vector Word 5 := #v[0x00000000, 0x5A827999, 0x6ED9EBA1, 0x8F1BBCDC, 0xA953FD4E]

/-- `K'[q]` (R70, right). -/
def constRight : Vector Word 5 := #v[0x50A28BE6, 0x5C4DD124, 0x6D703EF3, 0x7A6D76E9, 0x00000000]

/-- `r[16q + t]` at row q, column t (R71). -/
def indexLeft : Vector (Vector (Fin 16) 16) 5 := #v[
  #v[0, 1, 2, 3, 4, 5, 6, 7, 8, 9, 10, 11, 12, 13, 14, 15],
  #v[7, 4, 13, 1, 10, 6, 15, 3, 12, 0, 9, 5, 2, 14, 11, 8],
  #v[3, 10, 14, 4, 9, 15, 8, 1, 2, 7, 0, 6, 13, 11, 5, 12],
  #v[1, 9, 11, 10, 0, 8, 12, 4, 13, 3, 7, 15, 14, 5, 6, 2],
  #v[4, 0, 5, 9, 7, 12, 2, 10, 14, 1, 3, 8, 11, 6, 15, 13]]

/-- `r'[16q + t]` (R72); not `r` read backwards (90_conflicts.md C3). -/
def indexRight : Vector (Vector (Fin 16) 16) 5 := #v[
  #v[5, 14, 7, 0, 9, 2, 11, 4, 13, 6, 15, 8, 1, 10, 3, 12],
  #v[6, 11, 3, 7, 0, 13, 5, 10, 14, 15, 8, 12, 4, 9, 1, 2],
  #v[15, 5, 1, 3, 7, 14, 6, 9, 11, 8, 12, 2, 10, 0, 4, 13],
  #v[8, 6, 4, 1, 3, 11, 15, 0, 5, 12, 2, 13, 9, 7, 10, 14],
  #v[12, 15, 10, 4, 1, 5, 8, 7, 6, 2, 13, 14, 0, 3, 9, 11]]

/-- `s[16q + t]` (R73). -/
def rotLeft : Vector (Vector Nat 16) 5 := #v[
  #v[11, 14, 15, 12, 5, 8, 7, 9, 11, 13, 14, 15, 6, 7, 9, 8],
  #v[7, 6, 8, 13, 11, 9, 7, 15, 7, 12, 15, 9, 11, 7, 13, 12],
  #v[11, 13, 6, 7, 14, 9, 13, 15, 14, 8, 13, 6, 5, 12, 7, 5],
  #v[11, 12, 14, 15, 14, 15, 9, 8, 9, 14, 5, 6, 8, 6, 5, 12],
  #v[9, 15, 5, 11, 6, 8, 13, 12, 5, 12, 13, 14, 11, 8, 5, 6]]

/-- `s'[16q + t]` (R74). -/
def rotRight : Vector (Vector Nat 16) 5 := #v[
  #v[8, 9, 9, 11, 13, 15, 15, 5, 7, 7, 8, 11, 14, 14, 12, 6],
  #v[9, 13, 15, 7, 12, 8, 9, 11, 7, 7, 12, 7, 6, 15, 13, 11],
  #v[9, 7, 15, 11, 8, 6, 6, 14, 12, 13, 5, 14, 13, 13, 7, 5],
  #v[15, 5, 8, 11, 14, 14, 6, 14, 6, 9, 12, 9, 12, 5, 15, 8],
  #v[8, 5, 12, 9, 12, 5, 14, 6, 8, 13, 6, 5, 15, 13, 11, 11]]

/-- Entry `j` of a table, 0 ≤ j ≤ 79: row `q = floor(j / 16)`, column `j mod 16` (40_compress160.md section 3). -/
def tableAt {α : Type} (table : Vector (Vector α 16) 5) (j : Nat) : α :=
  (table[(j / 16) % 5]'(Nat.mod_lt _ (by decide)))[j % 16]'(Nat.mod_lt _ (by decide))

/-- Round constant `q`, 0 ≤ q ≤ 4. -/
def constAt (table : Vector Word 5) (q : Nat) : Word := table[q % 5]'(Nat.mod_lt _ (by decide))

/-- What distinguishes the two lines: function and constant by round, message-word index and rotation by step. -/
structure LineParams where
  /-- the boolean function of round q. -/
  func : Nat → Word → Word → Word → Word
  /-- the additive constant of round q. -/
  const : Nat → Word
  /-- which message word step j mixes in. -/
  index : Nat → Fin 16
  /-- how far step j rotates. -/
  rot : Nat → Nat

/-- The left line's parameters (R76). -/
def leftParams : LineParams := ⟨leftFunction, constAt constLeft, tableAt indexLeft, tableAt rotLeft⟩

/-- The right line's parameters (R77). -/
def rightParams : LineParams := ⟨rightFunction, constAt constRight, tableAt indexRight, tableAt rotRight⟩

/-- `IV160[0..4]` (R16). -/
def iv160 : Vector Word 5 := #v[0x67452301, 0xEFCDAB89, 0x98BADCFE, 0x10325476, 0xC3D2E1F0]

/-- `IV320[0..9]` (R22). -/
def iv320 : Vector Word 10 := #v[
  0x67452301, 0xEFCDAB89, 0x98BADCFE, 0x10325476, 0xC3D2E1F0,
  0x76543210, 0xFEDCBA98, 0x89ABCDEF, 0x01234567, 0x3C2D1E0F]

end Sys2Proof.Machine
end

