-- ==== Sys2Proof/Machine/Compress.lean ====
section
/-! DEFINITION. The two compression functions in roles: COMPRESS160 (40_compress160.md R75 to R78) and COMPRESS320
(41_compress320.md R81 to R84). Pure functions of (state, block) that never fail (R64, R80). -/

namespace Sys2Proof.Machine

/-- The five working registers of one line, by role (R28). -/
structure Line where
  /-- role A. -/
  a : Word
  /-- role B. -/
  b : Word
  /-- role C. -/
  c : Word
  /-- role D. -/
  d : Word
  /-- role E. -/
  e : Word
  deriving DecidableEq, Repr

/-- Both lines: left A..E and right A'..E'. -/
structure Lines where
  /-- the left line. -/
  left : Line
  /-- the right line. -/
  right : Line
  deriving DecidableEq, Repr

/-- The message words `X[k] = LE32(blk, 4k)`, k = 0..15 (20_memory.md R36). -/
def messageWords (blk : Block) : Vector Word 16 := Vector.ofFn fun k => le32 blk.toList (4 * k.val)

/-- One step of a line: function `f`, message word `x`, constant `k`, rotation amount `n` (R75). -/
def roleStep (f : Word → Word → Word → Word) (x k : Word) (n : Nat) (l : Line) : Line :=
  { a := l.e
    b := rol (l.a + f l.b l.c l.d + x + k) n + l.e
    c := l.b
    d := rol l.c 10
    e := l.d }

/-- Step `j` of the line with parameters `P` (R76, R77). -/
def lineStep (P : LineParams) (x : Vector Word 16) (j : Nat) (l : Line) : Line :=
  roleStep (P.func (j / 16)) x[P.index j] (P.const (j / 16)) (P.rot j) l

/-- Left-line step `j`, then right-line step `j` (R78, R82). -/
def bothSteps (x : Vector Word 16) (j : Nat) (p : Lines) : Lines :=
  ⟨lineStep leftParams x j p.left, lineStep rightParams x j p.right⟩

/-- The lines of Engine-160 after the steps 0 .. n−1 (R78). -/
def linesAfter160 (x : Vector Word 16) (start : Lines) : Nat → Lines
  | 0 => start
  | n + 1 => bothSteps x n (linesAfter160 x start n)

/-- The exchange that follows step `j` of both lines in Engine-320: B, D, A, C, E after j = 15, 31, 47, 63, 79 (R82, R83). -/
def swapAfter (j : Nat) (p : Lines) : Lines :=
  match j with
  | 15 => ⟨{ p.left with b := p.right.b }, { p.right with b := p.left.b }⟩
  | 31 => ⟨{ p.left with d := p.right.d }, { p.right with d := p.left.d }⟩
  | 47 => ⟨{ p.left with a := p.right.a }, { p.right with a := p.left.a }⟩
  | 63 => ⟨{ p.left with c := p.right.c }, { p.right with c := p.left.c }⟩
  | 79 => ⟨{ p.left with e := p.right.e }, { p.right with e := p.left.e }⟩
  | _ => p

/-- The lines of Engine-320 after the steps 0 .. n−1 and the swaps that follow them (R82). -/
def linesAfter320 (x : Vector Word 16) (start : Lines) : Nat → Lines
  | 0 => start
  | n + 1 => swapAfter n (bothSteps x n (linesAfter320 x start n))

/-- Both lines of Engine-160 start from the same five words (R78). -/
def setup160 (h : Vector Word 5) : Lines :=
  ⟨⟨h[0], h[1], h[2], h[3], h[4]⟩, ⟨h[0], h[1], h[2], h[3], h[4]⟩⟩

/-- The left line starts from `h[0..4]`, the right line from `h[5..9]` (R81). -/
def setup320 (h : Vector Word 10) : Lines :=
  ⟨⟨h[0], h[1], h[2], h[3], h[4]⟩, ⟨h[5], h[6], h[7], h[8], h[9]⟩⟩

/-- The output combination of COMPRESS160 (R78). -/
def combine160 (h : Vector Word 5) (p : Lines) : Vector Word 5 :=
  #v[h[1] + p.left.c + p.right.d,
     h[2] + p.left.d + p.right.e,
     h[3] + p.left.e + p.right.a,
     h[4] + p.left.a + p.right.b,
     h[0] + p.left.b + p.right.c]

/-- The output addition of COMPRESS320, word by word (R82, R84). -/
def combine320 (h : Vector Word 10) (p : Lines) : Vector Word 10 :=
  #v[h[0] + p.left.a, h[1] + p.left.b, h[2] + p.left.c, h[3] + p.left.d, h[4] + p.left.e,
     h[5] + p.right.a, h[6] + p.right.b, h[7] + p.right.c, h[8] + p.right.d, h[9] + p.right.e]

/-- COMPRESS160(h, blk) (R78). -/
def compress160 (h : Vector Word 5) (blk : Block) : Vector Word 5 :=
  combine160 h (linesAfter160 (messageWords blk) (setup160 h) 80)

/-- COMPRESS320(h, blk), role formulation (R82). -/
def compress320 (h : Vector Word 10) (blk : Block) : Vector Word 10 :=
  combine320 h (linesAfter320 (messageWords blk) (setup320 h) 80)

end Sys2Proof.Machine
end

