-- ==== Sys2Proof/Machine/State.lean ====
section
/-! DEFINITION. The state of one instance of RMD160 CORE (10_state.md R14 to R24): the register banks C160 and C320, the
instance's fixed parameter, and the host's side of the interface as plain data. -/

namespace Sys2Proof.Machine

/-- The lifecycle flag of a context (R19). It is a 2-bit register; the code 3 is never held, so the three names are all of
its values. -/
inductive Phase where
  /-- code 0: no INIT since reset. -/
  | uninit
  /-- code 1: a message is being absorbed. -/
  | active
  /-- code 2: FINAL has produced the digest. -/
  | spent
  deriving DecidableEq, Repr

/-- The Engine-160 context `C160` (R14 to R20). -/
structure Context160 where
  /-- chaining state `h[0..4]` (R15). -/
  h : Vector Word 5
  /-- block staging area `buf[0..63]` (R17). -/
  buf : Block
  /-- valid bytes in `buf`, a 7-bit register (R18). -/
  fill : BitVec 7
  /-- bytes compressed so far, modulo 2^64 (R20). -/
  len : Dword
  /-- lifecycle flag (R19). -/
  phase : Phase
  deriving DecidableEq, Repr

/-- The Engine-320 context `C320` (R14, R21 to R24). -/
structure Context320 where
  /-- chaining state `h[0..9]` (R21). -/
  h : Vector Word 10
  /-- block staging area `buf[0..63]` (R23). -/
  buf : Block
  /-- valid bytes in `buf`, a 7-bit register (R23). -/
  fill : BitVec 7
  /-- low word of the bytes compressed so far (R24). -/
  lenLo : Word
  /-- high word of the bytes compressed so far (R24). -/
  lenHi : Word
  /-- lifecycle flag (R19). -/
  phase : Phase
  deriving DecidableEq, Repr

/-- What the host can do to the block between commands (R13, R48, R140). -/
inductive HostEvent where
  /-- Hand the block one request frame, whole (R48). -/
  | request (frame : Bytes)
  /-- Apply the reset (R140); it is not a command and has no opcode. -/
  | reset
  deriving DecidableEq, Repr

/-- One instance and the host's side of its interface. Nothing but the two banks survives in the block from one command
to the next (R14). -/
structure State where
  /-- Engine-160 context. -/
  c160 : Context160
  /-- Engine-320 context. -/
  c320 : Context320
  /-- the instance's parameter, changed by no step (R58; log 3). -/
  params : Params
  /-- what the host does next, first event first (R44; log 1). -/
  pending : List HostEvent
  /-- the responses given so far, oldest first, each `status ‖ payload` (R53; log 2). -/
  responses : List Bytes
  /-- the model's own counter for the free values of Config (log 5, log 7); no register of the spec. -/
  freeCount : Nat
  deriving DecidableEq, Repr

/-- Why the machine stops with a fault: never. `InvalidState` and `ContractViolation` are responses after which the block
is ready for the next request (60_exceptions.md R130, R131), and there is no stuck state and no halt (R139); so this type
has no constructor, nobody raises it, and that is safe (log 9). -/
inductive Fault where
  deriving DecidableEq, Repr

/-- Why an instruction has no meaning in the model. -/
inductive Refusal where
  /-- The instruction is not modelled yet: raised by an arm of exec only. Safe. No arm of exec raises it now. -/
  | notModelled (mnemonic : String)
  deriving DecidableEq, Repr

/-- The outcome of a command of the spec (30_encoding.md R54). -/
inductive Status where
  /-- code 0x00. -/
  | ok
  /-- code 0x01: UPDATE or FINAL on a context that is not ACTIVE (R127). -/
  | invalidState
  /-- code 0x02: a malformed frame (R126). -/
  | contractViolation
  deriving DecidableEq, Repr

/-- What the machine finds when it looks at its request interface. -/
inductive Fetched where
  /-- The host does nothing more: the block is idle. -/
  | idle
  /-- The host applies reset; the state with the event taken. -/
  | reset (s : State)
  /-- A well-formed frame; the command, and the state with the frame taken. -/
  | command (i : Instr) (s : State)
  /-- A malformed frame; the state with the frame taken. -/
  | malformed (s : State)
  deriving DecidableEq, Repr

/-- The state right after reset: both phases UNINIT (R31, R140). Every other register is unspecified in R31; DESIGN
CHOICE (log 4), unsafe: they hold zero here. No rule reads one of them before INIT has rewritten it (R31). -/
def State.reset : State where
  c160 := { h := Vector.replicate 5 0, buf := Vector.replicate 64 0, fill := 0, len := 0, phase := .uninit }
  c320 := { h := Vector.replicate 10 0, buf := Vector.replicate 64 0, fill := 0, lenLo := 0, lenHi := 0,
            phase := .uninit }
  params := Config.defaultParams
  pending := []
  responses := []
  freeCount := 0

end Sys2Proof.Machine
end

