-- ==== Sys2Proof/Machine/Flags.lean ====
section
/-! DEFINITION. The flag-like state of a context and the arithmetic on its counters: phase codes and the phase gate
(10_state.md R19), the state names of the buffer (42_streaming.md R103), the roll-over test (R93), the byte counters and
the length field (R92, R94, R98, R100). -/

namespace Sys2Proof.Machine

/-- The 2-bit code of a phase (R19). -/
def phaseCode (p : Phase) : BitVec 2 :=
  match p with
  | .uninit => 0
  | .active => 1
  | .spent => 2

/-- The status byte of a response (R54). -/
def statusByte (st : Status) : Byte :=
  match st with
  | .ok => 0x00
  | .invalidState => 0x01
  | .contractViolation => 0x02

/-- Whether a context accepts UPDATE and FINAL: only while ACTIVE (R19, R127). -/
def acceptsData (p : Phase) : Bool :=
  match p with
  | .uninit => false
  | .active => true
  | .spent => false

/-- The source's names for the buffer of an ACTIVE context (R103). -/
inductive BufferState where
  /-- `fill = 0`. -/
  | empty
  /-- `0 < fill < 64`. -/
  | partly
  /-- `fill = 64`: drained at once, never seen between commands. -/
  | full
  deriving DecidableEq, Repr

/-- The name of a fill count (R103). -/
def bufferState (fill : Nat) : BufferState :=
  if fill = 0 then .empty else if fill < 64 then .partly else .full

/-- The padding roll-over test on `fill` after the 0x80: no room for the length field (R93, R99). -/
def rollsOver (fill : Nat) : Bool := 56 < fill

/-- `advance160(k)`: `len <- (len + k) mod 2^64` (R92). -/
def advance160 (len : Dword) (k : Nat) : Dword := BitVec.ofNat 64 (len.toNat + k)

/-- `advance320(k)`: the low word with the carry into the high word (R98). Answers (`len_lo`, `len_hi`). -/
def advance320 (lo hi : Word) (k : Nat) : Word × Word :=
  let t := lo.toNat + k
  (BitVec.ofNat 32 t, if 2 ^ 32 ≤ t then BitVec.ofNat 32 (hi.toNat + 1) else hi)

/-- `bitlen160()`: `ST64LE((len << 3) mod 2^64)` (R94). -/
def bitlen160 (len : Dword) : Bytes := st64le (len <<< 3)

/-- `bitlen320()`: `ST32LE(lo) ‖ ST32LE(hi)` (R100). -/
def bitlen320 (lo hi : Word) : Bytes := st32le (lo <<< 3) ++ st32le ((hi <<< 3) ||| (lo >>> 29))

end Sys2Proof.Machine
end

