-- ==== Sys2Proof/Machine/Operands.lean ====
section
/-! DEFINITION. The staging buffer and the operand of an UPDATE (42_streaming.md R91, R97: top-off, whole blocks straight
from the operand, tail), and the blocks FINAL compresses (R93, R99, R105). The same for both engines. -/

namespace Sys2Proof.Machine

/-- `buf[at_ + i] <- data[i]` for every i (R39). A byte beyond `buf[63]` has nowhere to go; the rules never write one while
`fill` ≤ 63 (log 10). -/
def writeBytes (buf : Block) (at_ : Nat) : Bytes → Block
  | [] => buf
  | b :: bs => writeBytes (buf.setIfInBounds at_ b) (at_ + 1) bs

/-- The buffer after INIT: 64 bytes 0x00 (R90). -/
def zeroBlock : Block := Vector.replicate 64 0x00

/-- The first 64 bytes of a byte string as a block. -/
def blockOf (bs : Bytes) : Block := writeBytes zeroBlock 0 (bs.take 64)

/-- How many operand bytes the top-off takes: `min(64 − fill, n)` when the buffer is not empty (R91). -/
def topOff (fill n : Nat) : Nat := if 0 < fill then min (64 - fill) n else 0

/-- The whole 64-byte chunks of a byte string, in order (R91). -/
def wholeBlocks (bs : Bytes) : List Block :=
  (List.range (bs.length / 64)).map fun k => blockOf (bs.drop (64 * k))

/-- What is left after the whole chunks, fewer than 64 bytes (R91). -/
def tailBytes (bs : Bytes) : Bytes := bs.drop (64 * (bs.length / 64))

/-- What an UPDATE does to the buffer: the blocks it compresses, in order, and what `buf` and `fill` are afterwards. -/
structure Absorbed where
  /-- the blocks compressed, first one first. -/
  blocks : List Block
  /-- the buffer afterwards, stale bytes included (R27; log 8). -/
  buf : Block
  /-- the fill count afterwards. -/
  fill : Nat
  deriving DecidableEq, Repr

/-- The part of an UPDATE after the top-off: whole blocks are compressed straight from the operand and not copied, the
tail goes to `buf[fill ..]` (R91). -/
def absorbRest (first : List Block) (buf : Block) (fill : Nat) (rest : Bytes) : Absorbed where
  blocks := first ++ wholeBlocks rest
  buf := writeBytes buf fill (tailBytes rest)
  fill := fill + (tailBytes rest).length

/-- The buffer part of UPDATE, R91 and R97: top-off; drain when full; whole blocks; tail. -/
def absorb (buf : Block) (fill : Nat) (data : Bytes) : Absorbed :=
  let take := topOff fill data.length
  let buf' := writeBytes buf fill (data.take take)
  if 0 < fill ∧ fill + take = 64 then absorbRest [buf'] buf' 0 (data.drop take)
  else absorbRest [] buf' (fill + take) (data.drop take)

/-- The blocks FINAL compresses: the buffer with 0x80 at `buf[fill]`, zero-filled, the length field at offsets 56..63 of
the last block (R93, R99; layout R38, cases R105). -/
def padBlocks (buf : Block) (fill : Nat) (lengthField : Bytes) : List Block :=
  let marked := buf.setIfInBounds fill 0x80
  if rollsOver (fill + 1) then
    [writeBytes marked (fill + 1) (zeros (64 - (fill + 1))),
     writeBytes (writeBytes zeroBlock 0 (zeros 56)) 56 lengthField]
  else
    [writeBytes (writeBytes marked (fill + 1) (zeros (56 - (fill + 1)))) 56 lengthField]

end Sys2Proof.Machine
end

