-- ==== Sys2Proof/Machine/Context.lean ====
section
/-! DEFINITION. INIT, UPDATE and FINAL on one context, apart from the phase check and the response (42_streaming.md R90 to
R101), and the pseudo-operations `hash160`, `hash320` on a private context (30_encoding.md R62). -/

namespace Sys2Proof.Machine

/-! Engine-160 -/

/-- The context RMD160.INIT leaves (R90): the same whatever came before (R145). -/
def init160 : Context160 :=
  { h := iv160, buf := zeroBlock, fill := 0, len := 0, phase := .active }

/-- Compress blocks in order into the chaining state (R91). -/
def compressAll160 (h : Vector Word 5) (blocks : List Block) : Vector Word 5 := blocks.foldl compress160 h

/-- The counter after `n` compressions of an UPDATE, `advance160(64)` each (R91, R92). -/
def advanceBlocks160 (len : Dword) : Nat → Dword
  | 0 => len
  | n + 1 => advanceBlocks160 (advance160 len 64) n

/-- RMD160.UPDATE on an ACTIVE context (R91). -/
def update160 (c : Context160) (data : Bytes) : Context160 :=
  let w := absorb c.buf c.fill.toNat data
  { c with
    h := compressAll160 c.h w.blocks
    buf := w.buf
    fill := BitVec.ofNat 7 w.fill
    len := advanceBlocks160 c.len w.blocks.length }

/-- The blocks RMD160.FINAL compresses; the counter is first advanced by the buffered bytes (R93). -/
def finalBlocks160 (c : Context160) : List Block :=
  padBlocks c.buf c.fill.toNat (bitlen160 (advance160 c.len c.fill.toNat))

/-- The digest RMD160.FINAL answers, 20 bytes (R93, R95). -/
def digest160 (c : Context160) : Bytes := storeWords (compressAll160 c.h (finalBlocks160 c)).toList

/-- A context whose registers are unspecified but for its phase: UNINIT after reset (R31), SPENT after FINAL (R108). The
other registers hold free values (log 5, log 6). -/
def unspecified160 (n : Nat) (p : Phase) : Context160 :=
  { h := Config.freeH160 n, buf := Config.freeBuf160 n, fill := Config.freeFill160 n, len := Config.freeLen160 n,
    phase := p }

/-- `hash160(m)`: INIT, UPDATE m, FINAL on a private context (R62). -/
def hash160 (m : Bytes) : Bytes := digest160 (update160 init160 m)

/-! Engine-320 -/

/-- The context RMD320.INIT leaves (R96). -/
def init320 : Context320 :=
  { h := iv320, buf := zeroBlock, fill := 0, lenLo := 0, lenHi := 0, phase := .active }

/-- Compress blocks in order into the chaining state (R97). -/
def compressAll320 (h : Vector Word 10) (blocks : List Block) : Vector Word 10 := blocks.foldl compress320 h

/-- The counter pair after `n` compressions of an UPDATE, `advance320(64)` each (R97, R98). -/
def advanceBlocks320 (l : Word × Word) : Nat → Word × Word
  | 0 => l
  | n + 1 => advanceBlocks320 (advance320 l.1 l.2 64) n

/-- RMD320.UPDATE on an ACTIVE context (R97). -/
def update320 (c : Context320) (data : Bytes) : Context320 :=
  let w := absorb c.buf c.fill.toNat data
  let l := advanceBlocks320 (c.lenLo, c.lenHi) w.blocks.length
  { c with
    h := compressAll320 c.h w.blocks
    buf := w.buf
    fill := BitVec.ofNat 7 w.fill
    lenLo := l.1
    lenHi := l.2 }

/-- The blocks RMD320.FINAL compresses (R99). -/
def finalBlocks320 (c : Context320) : List Block :=
  let l := advance320 c.lenLo c.lenHi c.fill.toNat
  padBlocks c.buf c.fill.toNat (bitlen320 l.1 l.2)

/-- The digest RMD320.FINAL answers, 40 bytes (R99, R101). -/
def digest320 (c : Context320) : Bytes := storeWords (compressAll320 c.h (finalBlocks320 c)).toList

/-- As `unspecified160`, for Engine-320 (R31, R108; log 5, log 6). -/
def unspecified320 (n : Nat) (p : Phase) : Context320 :=
  { h := Config.freeH320 n, buf := Config.freeBuf320 n, fill := Config.freeFill320 n,
    lenLo := Config.freeLenLo320 n, lenHi := Config.freeLenHi320 n, phase := p }

/-- `hash320(m)`: INIT, UPDATE m, FINAL on a private context, the controller's `CH` (R62, R115). -/
def hash320 (m : Bytes) : Bytes := digest320 (update320 init320 m)

end Sys2Proof.Machine
end

