-- ==== Sys2Proof/Machine/Ops.lean ====
section
/-! DEFINITION. The named operations on the whole state: responding (30_encoding.md R53), raising a fault and going on after
it (60_exceptions.md R130, R131), the reset event (70_reset_and_hazards.md R140), fetching a request (R48), and the phase
gate of UPDATE and FINAL (R127). -/

namespace Sys2Proof.Machine

/-- `respond(status, payload)`: the response `status ‖ payload` (R53). -/
def State.respond (s : State) (st : Status) (payload : Bytes) : State :=
  { s with responses := s.responses ++ [statusByte st :: payload] }

/-- Fault entry, the block's only kind of exception (R130): no register of C160 or C320 is written, nothing is saved or
latched, and the response is the single status byte. There is no return (R131): the next request runs on the state as it
was. -/
def State.raise (s : State) (st : Status) : State := s.respond st []

/-- Write the Engine-160 bank. -/
def State.setC160 (s : State) (c : Context160) : State := { s with c160 := c }

/-- Write the Engine-320 bank. -/
def State.setC320 (s : State) (c : Context320) : State := { s with c320 := c }

/-- The host's events after the present one. -/
def State.setPending (s : State) (es : List HostEvent) : State := { s with pending := es }

/-- Set the instance's parameter; no step does. -/
def State.setParams (s : State) (p : Params) : State := { s with params := p }

/-- Advance the counter of the free values (log 7). -/
def State.drawFree (s : State) : State := { s with freeCount := s.freeCount + 1 }

/-- The reset event: both phases UNINIT, every other register of both banks unspecified, no response (R31, R140; log 6). -/
def State.resetEvent (s : State) : State :=
  (((s.setC160 (unspecified160 s.freeCount .uninit)).setC320 (unspecified320 s.freeCount .uninit)).drawFree)

/-- Hand the block the host's next event: a frame is decoded before anything else is looked at (R48, R59, R129). -/
def State.fetch (s : State) : Fetched :=
  match s.pending with
  | [] => .idle
  | .reset :: rest => .reset (s.setPending rest)
  | .request frame :: rest =>
    match decode s.params frame with
    | .ok i => .command i (s.setPending rest)
    | .error _ => .malformed (s.setPending rest)

/-- The first line of UPDATE and FINAL: `if phase ≠ ACTIVE: raise InvalidState` (R91, R93, R127). -/
def whenActive (p : Phase) (s : State) (done : State) : Host.Outcome State Fault Refusal :=
  .next (if acceptsData p then done else s.raise .invalidState)

/-- The instance able to take the frame of the opcode `op`: 0x13 needs `HMAC160_PRESENT` (R58; log 3). -/
def paramsFor (p : Params) (op : Byte) : Params := if op = 0x13 then ⟨true⟩ else p

end Sys2Proof.Machine
end

