-- ==== Sys2Proof/Machine/Hex.lean ====
section
/-! DEFINITION. The nibble encoder (44_hex.md R119 to R123): stateless, any operand length. -/

namespace Sys2Proof.Machine

/-- `nib(v)`, 0 ≤ v ≤ 15: the ASCII code of the lowercase hexadecimal digit (R119). -/
def nib (v : Byte) : Byte := if v ≤ 9 then 0x30 + v else 0x61 + (v - 10)

/-- The characters of a byte string, high nibble first per byte (R120). -/
def hexChars (data : Bytes) : Bytes := data.flatMap fun (b : Byte) => [nib (b >>> 4), nib (b &&& 0x0F)]

/-- `HEX data` (R120). -/
def execHex (data : Bytes) (s : State) : Host.Outcome State Fault Refusal :=
  .next (s.respond .ok (hexChars data))

end Sys2Proof.Machine
end

