-- ==== Sys2Proof/Machine/Hmac.lean ====
section
/-! DEFINITION. The HMAC composition controller (43_hmac.md R110 to R117): both commands run on private contexts and write
no register of C160 or C320 (R115, R116). -/

namespace Sys2Proof.Machine

/-- Step 1, key reduction with the hash `H`: a key longer than 64 bytes is replaced by its digest (R111). -/
def reduceKey (H : Bytes → Bytes) (key : Bytes) : Bytes := if 64 < key.length then H key else key

/-- Step 2, zero extension to 64 bytes (R112). -/
def zeroExtend (kred : Bytes) : Bytes := kred ++ zeros (64 - kred.length)

/-- Step 3, a pad: every byte of `K0` exclusive-or the pad byte (R113). -/
def padKey (k0 : Bytes) (padByte : Byte) : Bytes := k0.map fun b => b ^^^ padByte

/-- The construction over the hash `H` (R114, R116): `TAG = H(OPAD ‖ H(IPAD ‖ msg))`. -/
def hmacTag (H : Bytes → Bytes) (key msg : Bytes) : Bytes :=
  let k0 := zeroExtend (reduceKey H key)
  H (padKey k0 0x5c ++ H (padKey k0 0x36 ++ msg))

/-- `RMD320.HMAC key, msg` (R114). -/
def execRmd320Hmac (key msg : Bytes) (s : State) : Host.Outcome State Fault Refusal :=
  .next (s.respond .ok (hmacTag hash320 key msg))

/-- `RMD160.HMAC key, msg` (R116): present exactly when `HMAC160_PRESENT`; without it opcode 0x13 is reserved and raises
`ContractViolation` (R58). -/
def execRmd160Hmac (key msg : Bytes) (s : State) : Host.Outcome State Fault Refusal :=
  .next (if s.params.hmac160Present then s.respond .ok (hmacTag hash160 key msg) else s.raise .contractViolation)

end Sys2Proof.Machine
end

