-- ==== Sys2Proof/Machine/Rmd160.lean ====
section
/-! DEFINITION. The three streaming commands of Engine-160 (42_streaming.md R90, R91, R93). -/

namespace Sys2Proof.Machine

/-- `RMD160.INIT`, legal in every phase (R90, R145). -/
def execRmd160Init (s : State) : Host.Outcome State Fault Refusal :=
  .next ((s.setC160 init160).respond .ok [])

/-- `RMD160.UPDATE data` (R91). -/
def execRmd160Update (data : Bytes) (s : State) : Host.Outcome State Fault Refusal :=
  whenActive s.c160.phase s ((s.setC160 (update160 s.c160 data)).respond .ok [])

/-- `RMD160.FINAL` (R93): afterwards only `phase` has a specified value (R108; log 5). -/
def execRmd160Final (s : State) : Host.Outcome State Fault Refusal :=
  whenActive s.c160.phase s
    (((s.setC160 (unspecified160 s.freeCount .spent)).drawFree).respond .ok (digest160 s.c160))

end Sys2Proof.Machine
end

