-- ==== Sys2Proof/Machine/Rmd320.lean ====
section
/-! DEFINITION. The three streaming commands of Engine-320 (42_streaming.md R96, R97, R99). -/

namespace Sys2Proof.Machine

/-- `RMD320.INIT`, legal in every phase (R96, R145). -/
def execRmd320Init (s : State) : Host.Outcome State Fault Refusal :=
  .next ((s.setC320 init320).respond .ok [])

/-- `RMD320.UPDATE data` (R97). -/
def execRmd320Update (data : Bytes) (s : State) : Host.Outcome State Fault Refusal :=
  whenActive s.c320.phase s ((s.setC320 (update320 s.c320 data)).respond .ok [])

/-- `RMD320.FINAL` (R99): afterwards only `phase` has a specified value (R108; log 5). -/
def execRmd320Final (s : State) : Host.Outcome State Fault Refusal :=
  whenActive s.c320.phase s
    (((s.setC320 (unspecified320 s.freeCount .spent)).drawFree).respond .ok (digest320 s.c320))

end Sys2Proof.Machine
end

