-- ==== Sys2Proof/Machine/Dispatch.lean ====
section
/-! DEFINITION. Which meaning each command has (30_encoding.md R55): one arm per constructor of Instr. -/

namespace Sys2Proof.Machine

def exec (i : Instr) (s : State) : Host.Outcome State Fault Refusal :=
  match i with
  | .rmd160Init => Sys2Proof.Machine.execRmd160Init s
  | .rmd160Update data => Sys2Proof.Machine.execRmd160Update data s
  | .rmd160Final => Sys2Proof.Machine.execRmd160Final s
  | .rmd160Hmac key msg => Sys2Proof.Machine.execRmd160Hmac key msg s
  | .rmd320Init => Sys2Proof.Machine.execRmd320Init s
  | .rmd320Update data => Sys2Proof.Machine.execRmd320Update data s
  | .rmd320Final => Sys2Proof.Machine.execRmd320Final s
  | .rmd320Hmac key msg => Sys2Proof.Machine.execRmd320Hmac key msg s
  | .hex data => Sys2Proof.Machine.execHex data s

end Sys2Proof.Machine
end

