-- ==== Sys2Proof/Machine/Step.lean ====
section
/-! DEFINITION. One step of the machine: one host event (00_scope.md R13, 60_exceptions.md R139), and where the host's tools
put the next instruction. -/

namespace Sys2Proof.Machine

/-- One step: idle without an event (R138); the reset event (R140); a well-formed frame runs its command; a malformed one
raises `ContractViolation` and changes no register (R57, R126, R130). -/
def step (s : State) : Host.Outcome State Fault Refusal :=
  match s.fetch with
  | .idle => .next s
  | .reset s' => .next s'.resetEvent
  | .command i s' => exec i s'
  | .malformed s' => .next (s'.raise .contractViolation)

/-- `s` with the instruction of an opcode-table word as the host's next request, and, for 0x13, on an instance that has
RMD160.HMAC, as that row's condition asks (log 3, log 12). -/
def State.withFetchWord (s : State) (nbits w : Nat) : State :=
  (s.setPending (.request (tableFrame nbits w) :: s.pending)).setParams (paramsFor s.params (BitVec.ofNat 8 w))

end Sys2Proof.Machine
end

