-- ==== Sys2Proof/Machine/Slots.lean ====
section
/-! DEFINITION. The two compression functions in the source's own form: ten working slots whose values stay put while the
roles rotate (40_compress160.md R79, 41_compress320.md R85, R86). The commands use the role form; R87 says that the two
forms agree. -/

namespace Sys2Proof.Machine

/-- The slot `b + ((i − j) mod 5)` that role `i` (A = 0 .. E = 4) occupies at step `j` (R85). -/
def slotOf (b i j : Nat) : Nat := b + (((i : Int) - (j : Int)) % 5).toNat

/-- Slot `k` of `w`; every slot number the rules compute is below 10. -/
def slotRead (w : Vector Word 10) (k : Nat) : Word := w.toList.getD k 0

/-- Step `j` of a fixed-slot round: the slot in role A gets the new value, the slot in role C is rotated by 10 (R85). -/
def slotStep (P : LineParams) (x : Vector Word 16) (b j : Nat) (w : Vector Word 10) : Vector Word 10 :=
  let ia := slotOf b 0 j
  let ib := slotOf b 1 j
  let ic := slotOf b 2 j
  let id := slotOf b 3 j
  let ie := slotOf b 4 j
  let sum := slotRead w ia + P.func (j / 16) (slotRead w ib) (slotRead w ic) (slotRead w id)
    + x[P.index j] + P.const (j / 16)
  let w' := w.setIfInBounds ia (rol sum (P.rot j) + slotRead w ie)
  w'.setIfInBounds ic (rol (slotRead w' ic) 10)

/-- A fixed-slot round: line round `q` on the slots from base `b`, the steps j = 16q .. 16q+15 (R85). -/
def slotRound (P : LineParams) (x : Vector Word 16) (b q : Nat) (w : Vector Word 10) : Vector Word 10 :=
  (List.range 16).foldl (fun w t => slotStep P x b (16 * q + t) w) w

/-- `swap(w[q], w[q+5])` (R86). -/
def slotSwap (q : Nat) (w : Vector Word 10) : Vector Word 10 :=
  (w.setIfInBounds q (slotRead w (q + 5))).setIfInBounds (q + 5) (slotRead w q)

/-- Document rounds 2q and 2q+1: the left line's round q, then the right line's (R79, R86). -/
def slotRoundPair (x : Vector Word 16) (q : Nat) (w : Vector Word 10) : Vector Word 10 :=
  slotRound rightParams x 5 q (slotRound leftParams x 0 q w)

/-- COMPRESS160 in slots (R79). -/
def compress160Slots (h : Vector Word 5) (blk : Block) : Vector Word 5 :=
  let x := messageWords blk
  let w := (List.range 5).foldl (fun w q => slotRoundPair x q w)
    #v[h[0], h[1], h[2], h[3], h[4], h[0], h[1], h[2], h[3], h[4]]
  Vector.ofFn fun i => h[(i.val + 1) % 5]'(Nat.mod_lt _ (by decide))
    + slotRead w ((i.val + 2) % 5) + slotRead w (5 + (i.val + 3) % 5)

/-- COMPRESS320 in slots: the swap follows each odd round (R86). -/
def compress320Slots (h : Vector Word 10) (blk : Block) : Vector Word 10 :=
  let x := messageWords blk
  let w := (List.range 5).foldl (fun w q => slotSwap q (slotRoundPair x q w)) h
  Vector.ofFn fun i => h[i] + slotRead w i.val

end Sys2Proof.Machine
end

