-- ==== Sys2Proof/Machine/Platform.lean ====
section
/-! DEFINITION. A platform of `N_INSTANCES` instances (00_scope.md R5, 60_exceptions.md R137): the product of independent
copies of the single-instance model. Which instance moves next is the platform's choice (log 14). -/

namespace Sys2Proof.Machine

/-- The instances of a platform; their number is `N_INSTANCES`. -/
structure Platform where
  /-- the instances, which share nothing. -/
  instances : List State
  deriving DecidableEq, Repr

/-- A platform of `n` instances right after reset: all start by the same reset (R137). -/
def platformReset (n : Nat) : Platform := ⟨List.replicate n State.reset⟩

/-- Instance `k` takes one step; the others are untouched. A number beyond the platform's instances names none, and
nothing moves. -/
def platformStep (k : Nat) (p : Platform) : Host.Outcome Platform Fault Refusal :=
  match p.instances[k]? with
  | none => .next p
  | some s =>
    match step s with
    | .next s' => .next ⟨p.instances.set k s'⟩
    | .fault r => .fault r
    | .refused r => .refused r

end Sys2Proof.Machine
end

