-- ==== Sys2Proof/Safety.lean ====
section
/-! DEFINITION. The terms the statements use: the invariant of the two contexts (10_state.md R25, R26), when two states
cannot be told apart by any response (R27, R31, 42_streaming.md R108), which byte strings are frames, written from
30_encoding.md R49, R56 and R57 and not from the decoder, and runs of several commands. -/

namespace Sys2Proof.Machine

/-! Contexts -/

/-- The message bytes received and not yet compressed: `buf[0 .. fill−1]` (R17). -/
def buffered (buf : Block) (fill : BitVec 7) : Bytes := buf.toList.take fill.toNat

/-- The bytes of blocks in order. -/
def blockBytes (blocks : List Block) : Bytes := blocks.flatMap fun b => b.toList

/-- The byte counter of Engine-320: `len_hi · 2^32 + len_lo` (R24). -/
def counter320 (c : Context320) : Nat := c.lenHi.toNat * 2 ^ 32 + c.lenLo.toNat

/-- R25 and R26 for C160: while ACTIVE, `fill` ≤ 63 and the counter is a multiple of 64. -/
abbrev Context160.Ok (c : Context160) : Prop :=
  c.phase = .active → c.fill.toNat ≤ 63 ∧ c.len.toNat % 64 = 0

/-- R25 and R26 for C320. -/
abbrev Context320.Ok (c : Context320) : Prop :=
  c.phase = .active → c.fill.toNat ≤ 63 ∧ counter320 c % 64 = 0

/-- The invariant of the machine: both contexts are as R25 and R26 say. -/
abbrev State.Inv (s : State) : Prop := s.c160.Ok ∧ s.c320.Ok

/-- Two Engine-160 contexts no response can tell apart: same phase and, while ACTIVE, same chaining state, counter, fill and
valid buffer bytes; stale bytes (R27) and registers of a context that is not ACTIVE (R31, R108) do not count. -/
def Context160.Similar (c d : Context160) : Prop :=
  c.phase = d.phase ∧
    (c.phase = .active →
      c.h = d.h ∧ c.fill = d.fill ∧ c.len = d.len ∧ buffered c.buf c.fill = buffered d.buf d.fill)

/-- As `Context160.Similar`, for Engine-320. -/
def Context320.Similar (c d : Context320) : Prop :=
  c.phase = d.phase ∧
    (c.phase = .active →
      c.h = d.h ∧ c.fill = d.fill ∧ c.lenLo = d.lenLo ∧ c.lenHi = d.lenHi
        ∧ buffered c.buf c.fill = buffered d.buf d.fill)

/-- Two states the host cannot tell apart, now or later. The counter of the free values does not count. -/
def State.Similar (s t : State) : Prop :=
  s.c160.Similar t.c160 ∧ s.c320.Similar t.c320 ∧ s.params = t.params ∧ s.pending = t.pending
    ∧ s.responses = t.responses

/-! Frames, from the rules -/

/-- The reserved values of byte 0 (R56), 0x13 apart. -/
abbrev ReservedOpcode (op : Byte) : Prop :=
  op.toNat ≤ 0x0F ∨ (0x14 ≤ op.toNat ∧ op.toNat ≤ 0x1F) ∨ (0x24 ≤ op.toNat ∧ op.toNat ≤ 0x2F) ∨ 0x31 ≤ op.toNat

/-- Byte 0 is reserved on an instance with parameter `p` (R56, R58). -/
abbrev ReservedFor (p : Params) (op : Byte) : Prop :=
  ReservedOpcode op ∨ (op = 0x13 ∧ p.hmac160Present = false)

/-- How many operand fields the format of a defined opcode has: F0, F1, F2 (R51, R55). -/
def formatFields (op : Byte) : Nat :=
  if op ∈ [0x11, 0x21, 0x30] then 1 else if op ∈ [0x13, 0x23] then 2 else 0

/-- `n_1`, read at offset 1 (R50). -/
def firstLength (frame : Bytes) : Nat := (le32 frame 1).toNat

/-- `n_2`, read at offset 1 + 4 + n_1 (R50). -/
def secondLength (frame : Bytes) : Nat := (le32 frame (5 + firstLength frame)).toNat

/-- R49: a defined opcode, and a total length of `1 + Σ (4 + n_i)` with every `n_i` read from the string itself. -/
def FrameWellFormed (p : Params) (frame : Bytes) : Prop :=
  ∃ op, frame.head? = some op ∧ ¬ ReservedFor p op ∧
    ((formatFields op = 0 ∧ frame.length = 1)
      ∨ (formatFields op = 1 ∧ 5 ≤ frame.length ∧ frame.length = 1 + (4 + firstLength frame))
      ∨ (formatFields op = 2 ∧ 9 + firstLength frame ≤ frame.length
          ∧ frame.length = 1 + (4 + firstLength frame) + (4 + secondLength frame)))

/-- R57: the five causes (a) to (e), each as the rule words it. -/
def FrameMalformed (p : Params) (frame : Bytes) : Prop :=
  frame = [] ∨ ∃ op, frame.head? = some op ∧
    (ReservedFor p op
      -- (c) it ends before all the length words of its format are complete
      ∨ (1 ≤ formatFields op ∧ frame.length < 5)
      ∨ (formatFields op = 2 ∧ 5 + firstLength frame ≤ frame.length ∧ frame.length < 9 + firstLength frame)
      -- (d) it ends before data_i is complete
      ∨ (1 ≤ formatFields op ∧ 5 ≤ frame.length ∧ frame.length < 5 + firstLength frame)
      ∨ (formatFields op = 2 ∧ 9 + firstLength frame ≤ frame.length
          ∧ frame.length < 9 + firstLength frame + secondLength frame)
      -- (e) bytes remain after the last field of its format
      ∨ (formatFields op = 0 ∧ 1 < frame.length)
      ∨ (formatFields op = 1 ∧ 5 ≤ frame.length ∧ 5 + firstLength frame < frame.length)
      ∨ (formatFields op = 2 ∧ 9 + firstLength frame ≤ frame.length
          ∧ 9 + firstLength frame + secondLength frame < frame.length))

/-! Runs of commands -/

/-- The commands `is` one after the other: the left-to-right composition of `exec` (20_memory.md R44). -/
def execAll : List Instr → State → Host.Outcome State Fault Refusal
  | [], s => .next s
  | i :: is, s =>
    match exec i s with
    | .next t => execAll is t
    | .fault r => .fault r
    | .refused r => .refused r

/-- `K0[i] ^ padByte` for i = 0 .. 63, where `K0` is the reduced key followed by zeros (43_hmac.md R112, R113), by index. -/
def hmacPad (kred : Bytes) (padByte : Byte) : Bytes :=
  (List.range 64).map fun i => kred.getD i 0x00 ^^^ padByte

/-- The message "The quick brown fox jumps over the lazy dog" in ASCII, 43 bytes (00_scope.md R7). -/
def quickBrownFox : Bytes :=
  [0x54, 0x68, 0x65, 0x20, 0x71, 0x75, 0x69, 0x63, 0x6b, 0x20, 0x62, 0x72, 0x6f, 0x77, 0x6e, 0x20,
      0x66, 0x6f, 0x78, 0x20, 0x6a, 0x75, 0x6d, 0x70, 0x73, 0x20, 0x6f, 0x76, 0x65, 0x72, 0x20, 0x74,
      0x68, 0x65, 0x20, 0x6c, 0x61, 0x7a, 0x79, 0x20, 0x64, 0x6f, 0x67]

/-- How many bytes 0x00 the padding of an `n`-byte message has: `(55 − n) mod 64`, non-negative remainder (R107). -/
def padZeros (n : Nat) : Nat := ((55 - (n : Int)) % 64).toNat

/-- `pad(m) = m ‖ 0x80 ‖ 0^k ‖ ST64LE((8·|m|) mod 2^64)` (R107). -/
def padMessage (m : Bytes) : Bytes :=
  m ++ [0x80] ++ zeros (padZeros m.length) ++ st64le (BitVec.ofNat 64 (8 * m.length))

end Sys2Proof.Machine
end

