-- ==== Sys2Proof/Certificates/Slice0/Obligations.lean ====
section
/-! DEFINITION. The statements for the provers: what RMD160 CORE does, from the numbered rules of spec/. Each docstring says
which rule or section a statement formalises. -/

open Sys2Proof Sys2Proof.Machine

/-! ## Frames: decoding and encoding -/

/-- Frames written out byte by byte from 30_encoding.md R49, R51, R55 (vectors E1, E2 of 95_test_vectors.md): one of each
family decodes to the command it stands for, and one of each cause (a) to (e) of R57 is rejected by its name. -/
def Obligations.DecodeOfWrittenOutFrames : Prop :=
  ∀ p : Params,
    decode p [0x10] = .ok .rmd160Init
    ∧ decode p [0x11, 0x03, 0x00, 0x00, 0x00, 0x61, 0x62, 0x63] = .ok (.rmd160Update [0x61, 0x62, 0x63])
    ∧ decode p [0x12] = .ok .rmd160Final
    ∧ decode ⟨true⟩ [0x13, 0x01, 0x00, 0x00, 0x00, 0xaa, 0x02, 0x00, 0x00, 0x00, 0xbb, 0xcc]
        = .ok (.rmd160Hmac [0xaa] [0xbb, 0xcc])
    ∧ decode p [0x20] = .ok .rmd320Init
    ∧ decode p [0x21, 0x00, 0x00, 0x00, 0x00] = .ok (.rmd320Update [])
    ∧ decode p [0x22] = .ok .rmd320Final
    ∧ decode p [0x23, 0x01, 0x00, 0x00, 0x00, 0xaa, 0x02, 0x00, 0x00, 0x00, 0xbb, 0xcc]
        = .ok (.rmd320Hmac [0xaa] [0xbb, 0xcc])
    ∧ decode p [0x30, 0x01, 0x00, 0x00, 0x00, 0xff] = .ok (.hex [0xff])
    ∧ decode p [] = .error .emptyFrame
    ∧ decode p [0x14] = .error (.reservedOpcode 0x14)
    ∧ decode ⟨false⟩ [0x13, 0x00, 0x00, 0x00, 0x00, 0x00, 0x00, 0x00, 0x00] = .error (.reservedOpcode 0x13)
    ∧ decode p [0x11, 0x03, 0x00, 0x00] = .error .truncatedLength
    ∧ decode p [0x23, 0x01, 0x00, 0x00, 0x00, 0xaa, 0x02, 0x00, 0x00, 0x00, 0xbb] = .error .truncatedData
    ∧ decode p [0x12, 0x00, 0x00, 0x00, 0x00] = .error .trailingBytes

/-- Decoding the encoding of a well-formed command that the instance has gives that command back, with every operand at
every length and value (30_encoding.md sections 1 and 3). -/
def Obligations.DecodeEncodeRoundTrip : Prop :=
  ∀ (p : Params) (i : Instr), i.wellFormed = true → i.present p = true → decode p (encode i) = .ok i

/-- A frame that decodes is the encoding of what it decodes to, which is well-formed and present: no two frames mean the
same command and no bit of a frame is ignored (30_encoding.md sections 1 and 3). -/
def Obligations.DecodedFrameIsTheEncoding : Prop :=
  ∀ (p : Params) (frame : Bytes) (i : Instr), decode p frame = .ok i →
    i.wellFormed = true ∧ i.present p = true ∧ encode i = frame

/-- R49: which byte strings decode, told from the string alone (a defined opcode and `|frame| = 1 + Σ (4 + n_i)`); a frame
that decodes is its opcode and, for each operand its format asks, the 4-byte little-endian length and the data; every
other byte string is malformed by one of the causes of R57. -/
def Obligations.FrameDecodesExactlyWhenWellFormed : Prop :=
  ∀ (p : Params) (frame : Bytes),
    ((∃ i, decode p frame = .ok i) ↔ FrameWellFormed p frame)
    ∧ (FrameWellFormed p frame ∨ FrameMalformed p frame)
    ∧ ∀ i, decode p frame = .ok i →
        i.operands.length = formatFields i.opcode
        ∧ frame = i.opcode :: (i.operands.flatMap fun d => st32le (BitVec.ofNat 32 d.length) ++ d)
        ∧ frame.length = 1 + (i.operands.map fun d => 4 + d.length).sum

/-- R57, R126: a byte string with one of the causes (a) to (e) answers `ContractViolation` in every state, and nothing else
of the machine changes but that the frame is taken; every other byte string decodes and does not answer it; causes (b) to
(e) are together the test of R49. -/
def Obligations.MalformedFrameRaisesContractViolation : Prop :=
  (∀ (p : Params) (frame : Bytes), FrameMalformed p frame ↔ ¬ FrameWellFormed p frame)
  ∧ ∀ (s : State) (frame : Bytes) (es : List HostEvent), s.pending = .request frame :: es →
    (FrameMalformed s.params frame →
      step s = .next { s with pending := es, responses := s.responses ++ [[0x02]] })
    ∧ (¬ FrameMalformed s.params frame →
      (∃ i, decode s.params frame = .ok i)
      ∧ ∃ t status payload, step s = .next t ∧ t.responses = s.responses ++ [status :: payload] ∧ status ≠ 0x02)

/-- R56: the reserved values of byte 0, 247 in all, and 0x13 without `HMAC160_PRESENT`: whatever follows the opcode, the
frame raises `ContractViolation` and changes no state. -/
def Obligations.ReservedOpcodesRaiseContractViolation : Prop :=
  ((List.range 256).filter fun n => decide (ReservedOpcode (BitVec.ofNat 8 n))).length = 247
  ∧ ∀ (s : State) (op : Byte) (rest : Bytes) (es : List HostEvent),
      s.pending = .request (op :: rest) :: es → ReservedFor s.params op →
        step s = .next { s with pending := es, responses := s.responses ++ [[0x02]] }

/-! ## The step -/

/-- When the host's next request decodes, the step is `exec` of that command on the state with the request taken; nothing
is added around `exec` (30_encoding.md section 1). -/
def Obligations.StepRunsTheDecodedCommand : Prop :=
  ∀ (s : State) (frame : Bytes) (es : List HostEvent) (i : Instr),
    s.pending = .request frame :: es → decode s.params frame = .ok i →
      step s = exec i { s with pending := es }

/-- The reset event (70_reset_and_hazards.md section 1): both phases UNINIT, no response, the parameter unchanged. Nothing
is said of any other register: the spec leaves them unspecified. -/
def Obligations.ResetEventMakesBothContextsUninit : Prop :=
  ∀ (s : State) (es : List HostEvent), s.pending = .reset :: es →
    ∃ t, step s = .next t ∧ t.c160.phase = .uninit ∧ t.c320.phase = .uninit
      ∧ t.params = s.params ∧ t.responses = s.responses ∧ t.pending = es

/-- Without a host event the block is idle and holds its state (60_exceptions.md section 3, on debug and power states;
log 1). -/
def Obligations.IdleBlockHoldsItsState : Prop :=
  ∀ s : State, s.pending = [] → step s = .next s

/-- The transition function is total: no stuck state, no halt (60_exceptions.md section 3, derived there); and every
request is taken and gets exactly one response, after the earlier ones (70_reset_and_hazards.md section 3, derived there;
the list of responses is the model's, log 2). -/
def Obligations.StepAlwaysAnswers : Prop :=
  ∀ s : State, ∃ t, step s = .next t
    ∧ ∀ (frame : Bytes) (es : List HostEvent), s.pending = .request frame :: es →
        t.pending = es ∧ ∃ response, t.responses = s.responses ++ [response]

/-- R53, R54: every response is a status byte 0x00, 0x01 or 0x02 and a payload, whose length is the command's when the
status is OK and 0 when it is not; a malformed frame gets the one byte 0x02. -/
def Obligations.ResponsesHaveTheirCommandsLength : Prop :=
  (statusByte .ok = 0x00 ∧ statusByte .invalidState = 0x01 ∧ statusByte .contractViolation = 0x02)
  ∧ (∀ (i : Instr) (s t : State), exec i s = .next t →
    ∃ status payload, t.responses = s.responses ++ [status :: payload]
      ∧ (status = 0x00 ∨ status = 0x01 ∨ status = 0x02)
      ∧ (status ≠ 0x00 → payload = [])
      ∧ (status = 0x00 → payload.length =
          match i with
          | .rmd160Init => 0
          | .rmd160Update _ => 0
          | .rmd160Final => 20
          | .rmd160Hmac _ _ => 20
          | .rmd320Init => 0
          | .rmd320Update _ => 0
          | .rmd320Final => 40
          | .rmd320Hmac _ _ => 40
          | .hex data => 2 * data.length))
  ∧ ∀ (s : State) (frame : Bytes) (es : List HostEvent) (e : DecodeError),
      s.pending = .request frame :: es → decode s.params frame = .error e →
        ∃ t, step s = .next t ∧ t.responses = s.responses ++ [[0x02]]

/-- When a command completes with OK (60_exceptions.md section 1): INIT, RMD320.HMAC and HEX in every state, RMD160.HMAC in
every state of an instance that has it, UPDATE and FINAL whenever their own context is ACTIVE; always for every operand. -/
def Obligations.CommandsCompleteWhenTheirContextAllows : Prop :=
  ∀ (s : State) (data key msg : Bytes),
    (∃ t, exec .rmd160Init s = .next t ∧ t.responses = s.responses ++ [[0x00]])
    ∧ (∃ t, exec .rmd320Init s = .next t ∧ t.responses = s.responses ++ [[0x00]])
    ∧ (∃ t payload, exec (.rmd320Hmac key msg) s = .next t ∧ t.responses = s.responses ++ [0x00 :: payload])
    ∧ (∃ t payload, exec (.hex data) s = .next t ∧ t.responses = s.responses ++ [0x00 :: payload])
    ∧ (s.params.hmac160Present = true →
      ∃ t payload, exec (.rmd160Hmac key msg) s = .next t ∧ t.responses = s.responses ++ [0x00 :: payload])
    ∧ (s.c160.phase = .active →
      (∃ t, exec (.rmd160Update data) s = .next t ∧ t.responses = s.responses ++ [[0x00]])
      ∧ ∃ t payload, exec .rmd160Final s = .next t ∧ t.responses = s.responses ++ [0x00 :: payload])
    ∧ (s.c320.phase = .active →
      (∃ t, exec (.rmd320Update data) s = .next t ∧ t.responses = s.responses ++ [[0x00]])
      ∧ ∃ t payload, exec .rmd320Final s = .next t ∧ t.responses = s.responses ++ [0x00 :: payload])

/-! ## INIT -/

/-- R90, R16: RMD160.INIT, in every phase, answers OK and leaves C160 at the initial chaining value with an all-zero buffer,
fill and counter 0, ACTIVE; nothing else changes. Its frame is the byte 0x10. -/
def Obligations.Rmd160InitGivesTheInitialContext : Prop :=
  (∀ p : Params, decode p [0x10] = .ok .rmd160Init)
  ∧ ∀ s : State, exec .rmd160Init s = .next { s with
      c160 := { h := #v[0x67452301, 0xEFCDAB89, 0x98BADCFE, 0x10325476, 0xC3D2E1F0]
                buf := Vector.replicate 64 0x00
                fill := 0
                len := 0
                phase := .active }
      responses := s.responses ++ [[0x00]] }

/-- R96, R22: RMD320.INIT likewise, with the ten initial words and both counter words 0. Its frame is the byte 0x20. -/
def Obligations.Rmd320InitGivesTheInitialContext : Prop :=
  (∀ p : Params, decode p [0x20] = .ok .rmd320Init)
  ∧ ∀ s : State, exec .rmd320Init s = .next { s with
      c320 := { h := #v[0x67452301, 0xEFCDAB89, 0x98BADCFE, 0x10325476, 0xC3D2E1F0,
                        0x76543210, 0xFEDCBA98, 0x89ABCDEF, 0x01234567, 0x3C2D1E0F]
                buf := Vector.replicate 64 0x00
                fill := 0
                lenLo := 0
                lenHi := 0
                phase := .active }
      responses := s.responses ++ [[0x00]] }

/-! ## UPDATE -/

/-- RMD160.UPDATE on an ACTIVE context completes with OK (42_streaming.md sections 1 and 3): the buffered bytes and the
operand, in order, are cut into `floor((fill + n)/64)` blocks, which are compressed into `h` and counted 64 each, and a
rest of fewer than 64 bytes, which is what the buffer then holds. `blocks` is fixed by the two byte equations. -/
def Obligations.Rmd160UpdateAbsorbsItsOperand : Prop :=
  ∀ (s : State) (data : Bytes), s.c160.phase = .active → s.c160.fill.toNat ≤ 63 →
    ∃ (c : Context160) (blocks : List Block),
      exec (.rmd160Update data) s = .next { s with c160 := c, responses := s.responses ++ [[0x00]] }
      ∧ blockBytes blocks ++ buffered c.buf c.fill = buffered s.c160.buf s.c160.fill ++ data
      ∧ blocks.length = (s.c160.fill.toNat + data.length) / 64
      ∧ c.fill.toNat = (s.c160.fill.toNat + data.length) % 64
      ∧ c.h = blocks.foldl compress160 s.c160.h
      ∧ c.len.toNat = (s.c160.len.toNat + 64 * blocks.length) % 2 ^ 64
      ∧ c.phase = .active

/-- RMD320.UPDATE on an ACTIVE context (42_streaming.md sections 2 and 3): as for Engine-160, with COMPRESS320 and the
counter `len_hi · 2^32 + len_lo` modulo 2^64. -/
def Obligations.Rmd320UpdateAbsorbsItsOperand : Prop :=
  ∀ (s : State) (data : Bytes), s.c320.phase = .active → s.c320.fill.toNat ≤ 63 →
    ∃ (c : Context320) (blocks : List Block),
      exec (.rmd320Update data) s = .next { s with c320 := c, responses := s.responses ++ [[0x00]] }
      ∧ blockBytes blocks ++ buffered c.buf c.fill = buffered s.c320.buf s.c320.fill ++ data
      ∧ blocks.length = (s.c320.fill.toNat + data.length) / 64
      ∧ c.fill.toNat = (s.c320.fill.toNat + data.length) % 64
      ∧ c.h = blocks.foldl compress320 s.c320.h
      ∧ counter320 c = (counter320 s.c320 + 64 * blocks.length) % 2 ^ 64
      ∧ c.phase = .active

/-- Every byte of `buf` after an UPDATE, the stale ones included, for both engines (42_streaming.md section 1 for
Engine-160, section 2 for Engine-320): without a completed block only the bytes from `fill` on that the operand fills
change; with one, the buffer was first topped off if it was not empty, and the tail then overwrites it from offset 0;
every other byte is unchanged. That stale bytes keep the pseudocode's values is a choice 10_state.md section 5 permits
(log 8). -/
def Obligations.UpdateWritesTheseBufferBytes : Prop :=
  ∀ (s t : State) (data : Bytes),
    (s.c160.phase = .active → s.c160.fill.toNat ≤ 63 → exec (.rmd160Update data) s = .next t →
      ∀ i, i < 64 → t.c160.buf.toList[i]? =
        (if s.c160.fill.toNat + data.length < 64 then
          (if s.c160.fill.toNat ≤ i ∧ i < s.c160.fill.toNat + data.length then data[i - s.c160.fill.toNat]?
           else s.c160.buf.toList[i]?)
         else if i < (s.c160.fill.toNat + data.length) % 64 then
          data[data.length - (s.c160.fill.toNat + data.length) % 64 + i]?
         else if 0 < s.c160.fill.toNat ∧ s.c160.fill.toNat ≤ i then data[i - s.c160.fill.toNat]?
         else s.c160.buf.toList[i]?))
    ∧ (s.c320.phase = .active → s.c320.fill.toNat ≤ 63 → exec (.rmd320Update data) s = .next t →
      ∀ i, i < 64 → t.c320.buf.toList[i]? =
        (if s.c320.fill.toNat + data.length < 64 then
          (if s.c320.fill.toNat ≤ i ∧ i < s.c320.fill.toNat + data.length then data[i - s.c320.fill.toNat]?
           else s.c320.buf.toList[i]?)
         else if i < (s.c320.fill.toNat + data.length) % 64 then
          data[data.length - (s.c320.fill.toNat + data.length) % 64 + i]?
         else if 0 < s.c320.fill.toNat ∧ s.c320.fill.toNat ≤ i then data[i - s.c320.fill.toNat]?
         else s.c320.buf.toList[i]?))

/-- R104: a zero-length UPDATE on an ACTIVE context changes no register of the block; on a context that is not ACTIVE it
still faults. -/
def Obligations.ZeroLengthUpdateChangesNoRegister : Prop :=
  ∀ s : State,
    (s.c160.phase = .active → s.c160.fill.toNat ≤ 63 →
      exec (.rmd160Update []) s = .next { s with responses := s.responses ++ [[0x00]] })
    ∧ (s.c320.phase = .active → s.c320.fill.toNat ≤ 63 →
      exec (.rmd320Update []) s = .next { s with responses := s.responses ++ [[0x00]] })
    ∧ (s.c160.phase ≠ .active →
      exec (.rmd160Update []) s = .next { s with responses := s.responses ++ [[0x01]] })
    ∧ (s.c320.phase ≠ .active →
      exec (.rmd320Update []) s = .next { s with responses := s.responses ++ [[0x01]] })

/-- An UPDATE adds its operand's length to counter + fill, modulo 2^64, and INIT makes both 0 (10_state.md section 4,
derived there). -/
def Obligations.CounterAndFillCountTheReceivedBytes : Prop :=
  (∀ s t : State, exec .rmd160Init s = .next t → t.c160.len.toNat + t.c160.fill.toNat = 0)
  ∧ (∀ s t : State, exec .rmd320Init s = .next t → counter320 t.c320 + t.c320.fill.toNat = 0)
  ∧ (∀ (s t : State) (data : Bytes), s.c160.phase = .active → s.c160.fill.toNat ≤ 63 →
      exec (.rmd160Update data) s = .next t →
        (t.c160.len.toNat + t.c160.fill.toNat) % 2 ^ 64
          = (s.c160.len.toNat + s.c160.fill.toNat + data.length) % 2 ^ 64)
  ∧ (∀ (s t : State) (data : Bytes), s.c320.phase = .active → s.c320.fill.toNat ≤ 63 →
      exec (.rmd320Update data) s = .next t →
        (counter320 t.c320 + t.c320.fill.toNat) % 2 ^ 64
          = (counter320 s.c320 + s.c320.fill.toNat + data.length) % 2 ^ 64)

/-- The source's buffer states (42_streaming.md section 3): INIT leaves Empty; an UPDATE leaves Empty or Partial as the
bytes fall, never Full. -/
def Obligations.BufferIsEmptyOrPartialBetweenCommands : Prop :=
  bufferState init160.fill.toNat = .empty ∧ bufferState init320.fill.toNat = .empty
  ∧ ∀ (s t : State) (data : Bytes),
    (s.c160.phase = .active → s.c160.fill.toNat ≤ 63 → exec (.rmd160Update data) s = .next t →
      bufferState t.c160.fill.toNat
        = if (s.c160.fill.toNat + data.length) % 64 = 0 then .empty else .partly)
    ∧ (s.c320.phase = .active → s.c320.fill.toNat ≤ 63 → exec (.rmd320Update data) s = .next t →
      bufferState t.c320.fill.toNat
        = if (s.c320.fill.toNat + data.length) % 64 = 0 then .empty else .partly)

/-! ## FINAL -/

/-- RMD160.FINAL on an ACTIVE context completes with OK and the digest (42_streaming.md sections 1 and 3): it compresses one
block when `fill` ≤ 55 and two when `fill` ≥ 56, whose bytes are the buffered bytes, 0x80, zeros, and the 8-byte length
field of 8 · (counter + fill) modulo 2^64; the digest is the five words of the result, little-endian; afterwards the
context is SPENT and only its phase is specified. -/
def Obligations.Rmd160FinalGivesTheDigest : Prop :=
  ∀ s : State, s.c160.phase = .active → s.c160.fill.toNat ≤ 63 →
    ∃ (t : State) (blocks : List Block),
      exec .rmd160Final s = .next t
      ∧ blockBytes blocks = buffered s.c160.buf s.c160.fill ++ [0x80]
          ++ zeros (if s.c160.fill.toNat ≤ 55 then 55 - s.c160.fill.toNat else 119 - s.c160.fill.toNat)
          ++ st64le (BitVec.ofNat 64 (8 * (s.c160.len.toNat + s.c160.fill.toNat)))
      ∧ blocks.length = (if s.c160.fill.toNat ≤ 55 then 1 else 2)
      ∧ t.responses = s.responses
          ++ [0x00 :: storeWords (blocks.foldl compress160 s.c160.h).toList]
      ∧ t.c160.phase = .spent
      ∧ t.c320 = s.c320 ∧ t.params = s.params ∧ t.pending = s.pending

/-- RMD320.FINAL on an ACTIVE context (42_streaming.md sections 2 and 3): as for Engine-160, with COMPRESS320, the counter
pair and ten words. -/
def Obligations.Rmd320FinalGivesTheDigest : Prop :=
  ∀ s : State, s.c320.phase = .active → s.c320.fill.toNat ≤ 63 →
    ∃ (t : State) (blocks : List Block),
      exec .rmd320Final s = .next t
      ∧ blockBytes blocks = buffered s.c320.buf s.c320.fill ++ [0x80]
          ++ zeros (if s.c320.fill.toNat ≤ 55 then 55 - s.c320.fill.toNat else 119 - s.c320.fill.toNat)
          ++ st64le (BitVec.ofNat 64 (8 * (counter320 s.c320 + s.c320.fill.toNat)))
      ∧ blocks.length = (if s.c320.fill.toNat ≤ 55 then 1 else 2)
      ∧ t.responses = s.responses
          ++ [0x00 :: storeWords (blocks.foldl compress320 s.c320.h).toList]
      ∧ t.c320.phase = .spent
      ∧ t.c160 = s.c160 ∧ t.params = s.params ∧ t.pending = s.pending

/-- R127: UPDATE (with any operand, the empty one included) and FINAL on a context that is UNINIT or SPENT answer
`InvalidState`, whatever the other context's phase, and change nothing else. -/
def Obligations.DataCommandsNeedAnActiveContext : Prop :=
  ∀ s : State,
    (s.c160.phase ≠ .active →
      (∀ data, exec (.rmd160Update data) s = .next { s with responses := s.responses ++ [[0x01]] })
      ∧ exec .rmd160Final s = .next { s with responses := s.responses ++ [[0x01]] })
    ∧ (s.c320.phase ≠ .active →
      (∀ data, exec (.rmd320Update data) s = .next { s with responses := s.responses ++ [[0x01]] })
      ∧ exec .rmd320Final s = .next { s with responses := s.responses ++ [[0x01]] })

/-! ## HMAC and HEX -/

/-- R111 to R114: RMD320.HMAC, in every state and for every key and message, answers OK with the 40-byte tag of the two
nested hashes and changes no register (the empty key and message, and keys of 64 and 65 bytes, are among them); its frame
carries `key` first; and the rules' examples: the reduced key of 80 bytes 0xaa, the pads of "key", and the inner digest
and tag of "key" with "The quick brown fox jumps over the lazy dog". -/
def Obligations.Rmd320HmacGivesTheTag : Prop :=
  (∀ (s : State) (key msg kred : Bytes), kred = (if 64 < key.length then hash320 key else key) →
    exec (.rmd320Hmac key msg) s = .next { s with
      responses := s.responses
        ++ [0x00 :: hash320 (hmacPad kred 0x5c ++ hash320 (hmacPad kred 0x36 ++ msg))] })
  ∧ (∀ m : Bytes, (hash320 m).length = 40)
  ∧ (∀ (p : Params) (key msg : Bytes), key.length < 2 ^ 32 → msg.length < 2 ^ 32 →
      decode p (0x23 :: (st32le (BitVec.ofNat 32 key.length) ++ key
        ++ st32le (BitVec.ofNat 32 msg.length) ++ msg)) = .ok (.rmd320Hmac key msg))
  ∧ hash320 (List.replicate 80 0xaa) =
      [0x0b, 0x69, 0xb1, 0x21, 0x1c, 0xe0, 0xb5, 0xb1, 0x5e, 0xd0, 0x4f, 0x8a, 0xcf, 0xe7, 0x5c, 0x11,
      0x79, 0x70, 0x00, 0x41, 0x11, 0xef, 0xc6, 0x98, 0xe6, 0x1f, 0x23, 0xf4, 0x39, 0xd4, 0xba, 0x59,
      0xb7, 0xae, 0x9e, 0x70, 0x70, 0xb7, 0x3a, 0xd1]
  ∧ hmacPad [0x6b, 0x65, 0x79] 0x36 = [0x5d, 0x53, 0x4f] ++ List.replicate 61 0x36
  ∧ hmacPad [0x6b, 0x65, 0x79] 0x5c = [0x37, 0x39, 0x25] ++ List.replicate 61 0x5c
  ∧ hash320 (hmacPad [0x6b, 0x65, 0x79] 0x36 ++ quickBrownFox) =
      [0x06, 0x0d, 0xb2, 0xbb, 0xbc, 0xaa, 0xfc, 0x43, 0x5b, 0x6c, 0x87, 0xa4, 0x83, 0xa5, 0xfd, 0x84,
      0x9c, 0xa8, 0xc4, 0x7f, 0x30, 0xa7, 0x8e, 0x53, 0x40, 0x7b, 0x33, 0x45, 0xbb, 0x4a, 0x72, 0xdb,
      0xf3, 0x9b, 0xaf, 0x5e, 0xe8, 0xee, 0x71, 0xbd]
  ∧ hash320 (hmacPad [0x6b, 0x65, 0x79] 0x5c ++ hash320 (hmacPad [0x6b, 0x65, 0x79] 0x36 ++ quickBrownFox)) =
      [0xdf, 0xca, 0x87, 0x56, 0x18, 0x9f, 0xc5, 0x56, 0x32, 0x3f, 0xb3, 0x44, 0x00, 0x1a, 0x92, 0x7c,
      0x16, 0x1f, 0x83, 0xa9, 0xd8, 0xf4, 0x02, 0xd0, 0x92, 0xc5, 0x37, 0x34, 0x6a, 0xe9, 0x77, 0x11,
      0x3c, 0x4d, 0x02, 0xcc, 0xa7, 0x57, 0xa7, 0xad]

/-- 43_hmac.md section 2: RMD160.HMAC on an instance that has it answers OK with the same construction over Engine-160, in
every state, and changes no register. -/
def Obligations.Rmd160HmacGivesTheTagWhenPresent : Prop :=
  ∀ (s : State) (key msg kred : Bytes), s.params.hmac160Present = true →
    kred = (if 64 < key.length then hash160 key else key) →
    exec (.rmd160Hmac key msg) s = .next { s with
      responses := s.responses
        ++ [0x00 :: hash160 (hmacPad kred 0x5c ++ hash160 (hmacPad kred 0x36 ++ msg))] }

/-- R58: when `HMAC160_PRESENT` is true, 0x13 decodes as RMD160.HMAC with its two fields; when it is false, every frame with
that opcode is rejected as reserved. No step changes the parameter. -/
def Obligations.Rmd160HmacExistsExactlyWhenPresent : Prop :=
  (∀ key msg : Bytes, key.length < 2 ^ 32 → msg.length < 2 ^ 32 →
    decode ⟨true⟩ (0x13 :: (st32le (BitVec.ofNat 32 key.length) ++ key
      ++ st32le (BitVec.ofNat 32 msg.length) ++ msg)) = .ok (.rmd160Hmac key msg))
  ∧ (∀ rest : Bytes, decode ⟨false⟩ (0x13 :: rest) = .error (.reservedOpcode 0x13))
  ∧ ∀ s t : State, step s = .next t → t.params = s.params

/-- Two keys that the controller cannot tell apart (43_hmac.md section 3): a key of at most 64 bytes and the same key with
zeros after it, up to 64 bytes; a longer key and its digest. -/
def Obligations.EquivalentKeysGiveTheSameTag : Prop :=
  ∀ (s : State) (key msg : Bytes),
    (∀ k, key.length + k ≤ 64 →
      exec (.rmd320Hmac (key ++ zeros k) msg) s = exec (.rmd320Hmac key msg) s
      ∧ exec (.rmd160Hmac (key ++ zeros k) msg) s = exec (.rmd160Hmac key msg) s)
    ∧ (64 < key.length →
      exec (.rmd320Hmac (hash320 key) msg) s = exec (.rmd320Hmac key msg) s
      ∧ exec (.rmd160Hmac (hash160 key) msg) s = exec (.rmd160Hmac key msg) s)

/-- R119, R120: HEX, in every state and for every operand, answers OK with 2n characters, the high nibble's first, each
0x30 + v for a nibble v ≤ 9 and 0x61 + (v − 10) above, and changes no register; its frame; and the rule's example. -/
def Obligations.HexGivesTwoCharactersPerByte : Prop :=
  (∀ (s : State) (data : Bytes), ∃ out : Bytes,
    exec (.hex data) s = .next { s with responses := s.responses ++ [0x00 :: out] }
    ∧ out.length = 2 * data.length
    ∧ ∀ (i : Nat) (b : Byte), data[i]? = some b →
        (∃ c, out[2 * i]? = some c ∧ c.toNat
          = if b.toNat / 16 ≤ 9 then 0x30 + b.toNat / 16 else 0x61 + (b.toNat / 16 - 10))
        ∧ (∃ c, out[2 * i + 1]? = some c ∧ c.toNat
          = if b.toNat % 16 ≤ 9 then 0x30 + b.toNat % 16 else 0x61 + (b.toNat % 16 - 10)))
  ∧ (∀ (p : Params) (data : Bytes), data.length < 2 ^ 32 →
      decode p (0x30 :: (st32le (BitVec.ofNat 32 data.length) ++ data)) = .ok (.hex data))
  ∧ hexChars [0x8e, 0xb2, 0x08, 0xf7] = [0x38, 0x65, 0x62, 0x32, 0x30, 0x38, 0x66, 0x37]

/-- 44_hex.md, required properties (derived there): lowercase hex characters only; decoding the payload gives the operand
back, so HEX is injective; the payload of a concatenation is the concatenation of the payloads. -/
def Obligations.HexIsInvertibleAndBytewise : Prop :=
  (∀ (data : Bytes) (c : Byte), c ∈ hexChars data →
    (0x30 ≤ c.toNat ∧ c.toNat ≤ 0x39) ∨ (0x61 ≤ c.toNat ∧ c.toNat ≤ 0x66))
  ∧ (∀ a b : Bytes, hexChars a = hexChars b → a = b)
  ∧ (∀ a b : Bytes, hexChars (a ++ b) = hexChars a ++ hexChars b)
  ∧ (∀ (data : Bytes) (i : Nat) (hi lo : Byte), (hexChars data)[2 * i]? = some hi →
      (hexChars data)[2 * i + 1]? = some lo → ∃ b, data[i]? = some b ∧ b.toNat
        = 16 * (if hi.toNat ≤ 0x39 then hi.toNat - 0x30 else hi.toNat - 0x61 + 10)
          + (if lo.toNat ≤ 0x39 then lo.toNat - 0x30 else lo.toNat - 0x61 + 10))

/-! ## The compression functions -/

/-- R65 to R69: the five boolean functions bit by bit, by their truth tables, and the rules' examples. -/
def Obligations.BooleanFunctionsHaveTheirTruthTables : Prop :=
  (∀ (x y z : Word) (i : Nat), i < 32 →
    (f1 x y z).getLsbD i = ((x.getLsbD i ^^ y.getLsbD i) ^^ z.getLsbD i)
    ∧ (f2 x y z).getLsbD i = (if x.getLsbD i then y.getLsbD i else z.getLsbD i)
    ∧ (f3 x y z).getLsbD i = ((x.getLsbD i || !y.getLsbD i) ^^ z.getLsbD i)
    ∧ (f4 x y z).getLsbD i = (if z.getLsbD i then x.getLsbD i else y.getLsbD i)
    ∧ (f5 x y z).getLsbD i = (x.getLsbD i ^^ (y.getLsbD i || !z.getLsbD i)))
  ∧ f1 0xEFCDAB89 0x98BADCFE 0x10325476 = 0x67452301
  ∧ f2 0xEFCDAB89 0x98BADCFE 0x10325476 = 0x98BADCFE
  ∧ f3 0xEFCDAB89 0x98BADCFE 0x10325476 = 0xFFFFFFFF ∧ f3 0 0 0 = 0xFFFFFFFF
  ∧ f4 0xEFCDAB89 0x98BADCFE 0x10325476 = 0x88888888
  ∧ f5 0xEFCDAB89 0x98BADCFE 0x10325476 = 0x10325476 ∧ f5 0 0 0 = 0xFFFFFFFF

/-- R11: rotation, as the rule's sum of shifts and as a circular move of the bits, that every rotation amount of the two
tables is in 5 .. 15 (the fixed amount of a step is 10), and the rule's examples. -/
def Obligations.RotationIsCircular : Prop :=
  (∀ (a : Word) (n : Nat), 1 ≤ n → n ≤ 31 →
    (rol a n).toNat = ((a.toNat * 2 ^ n) % 2 ^ 32) ||| (a.toNat / 2 ^ (32 - n))
    ∧ ∀ i, i < 32 → (rol a n).getLsbD i = a.getLsbD ((i + 32 - n) % 32))
  ∧ (∀ j, j < 80 → 5 ≤ tableAt rotLeft j ∧ tableAt rotLeft j ≤ 15
      ∧ 5 ≤ tableAt rotRight j ∧ tableAt rotRight j ≤ 15)
  ∧ rol 0x80000001 1 = 0x00000003 ∧ rol 0x12345678 10 = 0xD159E048

/-- Checks of the four tables (40_compress160.md section 3; vector T0 of 95_test_vectors.md): every row of r and r' is a
permutation of 0 .. 15, and the plain and weighted sums of r, r', s and s'. -/
def Obligations.TablesHaveTheirChecksums : Prop :=
  (∀ q, q < 5 → ∀ k, k < 16 →
    (∃ t, t < 16 ∧ (tableAt indexLeft (16 * q + t)).val = k)
    ∧ (∃ t, t < 16 ∧ (tableAt indexRight (16 * q + t)).val = k))
  ∧ ((List.range 80).map fun j => (tableAt indexLeft j).val).sum = 600
  ∧ ((List.range 80).map fun j => (tableAt indexRight j).val).sum = 600
  ∧ ((List.range 80).map fun j => tableAt rotLeft j).sum = 800
  ∧ ((List.range 80).map fun j => tableAt rotRight j).sum = 800
  ∧ ((List.range 80).map fun j => (j + 1) * (tableAt indexLeft j).val).sum = 24860
  ∧ ((List.range 80).map fun j => (j + 1) * (tableAt indexRight j).val).sum = 24372
  ∧ ((List.range 80).map fun j => (j + 1) * tableAt rotLeft j).sum = 31798
  ∧ ((List.range 80).map fun j => (j + 1) * tableAt rotRight j).sum = 32118

/-- The working registers on the block of "abc" (vectors T2 and T4 of 95_test_vectors.md): Engine-160 after the steps 0, 15
and 79, Engine-320 after the first swap and after the last, and both outputs. -/
def Obligations.WorkingRegistersOnTheAbcBlock : Prop :=
  let x := messageWords (blockOf ([0x61, 0x62, 0x63, 0x80] ++ zeros 52 ++ [0x18] ++ zeros 7))
  linesAfter160 x (setup160 iv160) 1
    = ⟨⟨0xC3D2E1F0, 0x3115FC67, 0xEFCDAB89, 0xEB73FA62, 0x10325476⟩,
       ⟨0xC3D2E1F0, 0xDDD63FB8, 0xEFCDAB89, 0xEB73FA62, 0x10325476⟩⟩
  ∧ linesAfter160 x (setup160 iv160) 16
    = ⟨⟨0xB2925676, 0x597BF629, 0x85861D02, 0x53C14C52, 0x17D1BEF0⟩,
       ⟨0xFDB61089, 0xFF459078, 0x3D16242D, 0x0FD356CF, 0x005A1576⟩⟩
  ∧ linesAfter160 x (setup160 iv160) 80
    = ⟨⟨0x641129CA, 0xD563BFDC, 0x0B2CDC01, 0x6E413468, 0xFC433DA8⟩,
       ⟨0x81D4727D, 0x5FCCBADE, 0xBF627814, 0xFC0E2B04, 0x739C4C7A⟩⟩
  ∧ combine160 iv160 (linesAfter160 x (setup160 iv160) 80)
    = #v[0xF708B28E, 0x7A985DE0, 0x8E4A049B, 0x87B0C698, 0xFC0B5AF1]
  ∧ linesAfter320 x (setup320 iv320) 16
    = ⟨⟨0xB2925676, 0xB72A37F5, 0x85861D02, 0x53C14C52, 0x17D1BEF0⟩,
       ⟨0xF9A76BAC, 0x597BF629, 0xE75B1CAB, 0x8EFB3E36, 0x330653D4⟩⟩
  ∧ linesAfter320 x (setup320 iv320) 80
    = ⟨⟨0x4BBC29DD, 0x40BBA37C, 0x154EC0A9, 0x206039FD, 0x4444782E⟩,
       ⟨0x4BA9BD4B, 0x723A1720, 0xA64CA64F, 0x4BB2FD42, 0xF13BA6CC⟩⟩
  ∧ combine320 iv320 (linesAfter320 x (setup320 iv320) 80)
    = #v[0xB3014CDE, 0x30894F05, 0xAE099DA7, 0x30928E73, 0x08175A1E,
         0xC1FDEF5B, 0x7116D1B8, 0x2FF8743E, 0x4CD642A9, 0x2D68C4DB]

/-- The output combination of COMPRESS160 by index (40_compress160.md section 5): `out[i] = h[(i+1) mod 5] + L[(i+2) mod 5]
+ R[(i+3) mod 5]`, with the lines as arrays A .. E. -/
def Obligations.Compress160CombinesAcrossLinesByIndex : Prop :=
  ∀ (h : Vector Word 5) (blk : Block) (i : Nat), i < 5 →
    let p := linesAfter160 (messageWords blk) (setup160 h) 80
    (compress160 h blk)[i]?
      = some (h.toList.getD ((i + 1) % 5) 0
          + [p.left.a, p.left.b, p.left.c, p.left.d, p.left.e].getD ((i + 2) % 5) 0
          + [p.right.a, p.right.b, p.right.c, p.right.d, p.right.e].getD ((i + 3) % 5) 0)

/-- The two lines of Engine-160 never read each other (40_compress160.md section 5, derived there): what one line holds
after any number of steps does not depend on where the other started. -/
def Obligations.LinesOfEngine160AreIndependent : Prop :=
  ∀ (x : Vector Word 16) (l r l' r' : Line) (n : Nat),
    (linesAfter160 x ⟨l, r⟩ n).left = (linesAfter160 x ⟨l, r'⟩ n).left
    ∧ (linesAfter160 x ⟨l, r⟩ n).right = (linesAfter160 x ⟨l', r⟩ n).right

/-- Role and slot formulation of COMPRESS160 return the same five words for every state and block (41_compress320.md
section 3, derived there). -/
def Obligations.Compress160RoleAndSlotFormsAgree : Prop :=
  ∀ (h : Vector Word 5) (blk : Block), compress160 h blk = compress160Slots h blk

/-- Role and slot formulation of COMPRESS320 return the same ten words for every state and block: the source's swaps of
fixed slots 0↔5, 1↔6, 2↔7, 3↔8, 4↔9 are the role swaps B, D, A, C, E (41_compress320.md sections 2 and 3, derived there). -/
def Obligations.Compress320RoleAndSlotFormsAgree : Prop :=
  ∀ (h : Vector Word 10) (blk : Block), compress320 h blk = compress320Slots h blk

/-! ## Byte order, counters, length field, digest -/

/-- R33, R34, R35: the word load by its sum, the word and 64-bit stores byte by byte, and load after store. -/
def Obligations.LoadsAndStoresAreLittleEndian : Prop :=
  (∀ (s : Bytes) (i : Nat), i + 3 < s.length →
    (le32 s i).toNat = (s.getD i 0).toNat + 2 ^ 8 * (s.getD (i + 1) 0).toNat
      + 2 ^ 16 * (s.getD (i + 2) 0).toNat + 2 ^ 24 * (s.getD (i + 3) 0).toNat)
  ∧ (∀ v : Word, st32le v = [v.extractLsb 7 0, v.extractLsb 15 8, v.extractLsb 23 16, v.extractLsb 31 24]
      ∧ le32 (st32le v) 0 = v)
  ∧ (∀ v : Dword, st64le v = st32le (v.extractLsb 31 0) ++ st32le (v.extractLsb 63 32)
      ∧ ∀ k, k < 8 → (st64le v)[k]? = some (v.extractLsb' (8 * k) 8))
  ∧ le32 [0x61, 0x62, 0x63, 0x80] 0 = 0x80636261
  ∧ st32le 0xA585119C = [0x9C, 0x11, 0x85, 0xA5]

/-- R92, R98: the byte counters advance modulo 2^64, the pair of Engine-320 by the rule's carry from low to high, which for
k ≤ 64 is the test `(t mod 2^32) < k`; only the low 61 bits of Engine-160's counter reach the length field. -/
def Obligations.CountersAdvanceModulo2Pow64 : Prop :=
  (∀ (len : Dword) (k : Nat), k ≤ 64 → (advance160 len k).toNat = (len.toNat + k) % 2 ^ 64)
  ∧ (∀ len : Dword, bitlen160 len = bitlen160 (BitVec.ofNat 64 (len.toNat % 2 ^ 61)))
  ∧ (∀ (lo hi : Word) (k : Nat), k ≤ 64 →
      (advance320 lo hi k).1.toNat = (lo.toNat + k) % 2 ^ 32
      ∧ (advance320 lo hi k).2.toNat
          = (if 2 ^ 32 ≤ lo.toNat + k then (hi.toNat + 1) % 2 ^ 32 else hi.toNat)
      ∧ (2 ^ 32 ≤ lo.toNat + k ↔ (lo.toNat + k) % 2 ^ 32 < k))
  ∧ advance320 0xFFFFFFC0 0 64 = (0, 1)

/-- R94, R100: the two length fields as numbers, low word and high word, with the rules' examples. -/
def Obligations.LengthFieldsHoldTheBitLength : Prop :=
  (∀ len : Dword, bitlen160 len = st64le (BitVec.ofNat 64 (len.toNat * 8 % 2 ^ 64)))
  ∧ (∀ lo hi : Word, bitlen320 lo hi = st32le (BitVec.ofNat 32 (lo.toNat * 8 % 2 ^ 32))
      ++ st32le (BitVec.ofNat 32 (hi.toNat * 8 % 2 ^ 32 + lo.toNat / 2 ^ 29)))
  ∧ bitlen160 3 = [0x18, 0, 0, 0, 0, 0, 0, 0]
  ∧ bitlen160 (BitVec.ofNat 64 (2 ^ 29)) = [0, 0, 0, 0, 0x01, 0, 0, 0]
  ∧ bitlen160 (BitVec.ofNat 64 (2 ^ 61)) = [0, 0, 0, 0, 0, 0, 0, 0]
  ∧ bitlen320 3 0 = [0x18, 0, 0, 0, 0, 0, 0, 0]
  ∧ bitlen320 0x20000000 0 = [0, 0, 0, 0, 0x01, 0, 0, 0]
  ∧ bitlen320 0xFFFFFFFF 0 = [0xF8, 0xFF, 0xFF, 0xFF, 0x07, 0, 0, 0]
  ∧ bitlen320 0 0x20000000 = [0, 0, 0, 0, 0, 0, 0, 0]

/-- The two length encodings agree for every 64-bit length (42_streaming.md section 2, derived there). -/
def Obligations.LengthEncodingsOfTheTwoEnginesAgree : Prop :=
  ∀ n : Dword,
    bitlen160 n = bitlen320 (BitVec.ofNat 32 (n.toNat % 2 ^ 32)) (BitVec.ofNat 32 (n.toNat / 2 ^ 32))
    ∧ bitlen160 n = st64le (BitVec.ofNat 64 (8 * n.toNat))

/-- R95, R101: digest byte 4i + k is `h[i][8k+7 : 8k]`, 20 bytes for Engine-160 and 40 for Engine-320. -/
def Obligations.DigestsSerialiseTheChainingWords : Prop :=
  (∀ (h : Vector Word 5), (storeWords h.toList).length = 20 ∧ ∀ i k, i < 5 → k < 4 →
    (storeWords h.toList)[4 * i + k]? = some ((h.toList.getD i 0).extractLsb' (8 * k) 8))
  ∧ (∀ (h : Vector Word 10), (storeWords h.toList).length = 40 ∧ ∀ i k, i < 10 → k < 4 →
    (storeWords h.toList)[4 * i + k]? = some ((h.toList.getD i 0).extractLsb' (8 * k) 8))
  ∧ storeWords [0xF708B28E, 0x7A985DE0, 0x8E4A049B, 0x87B0C698, 0xFC0B5AF1]
      = [0x8e, 0xb2, 0x08, 0xf7, 0xe0, 0x5d, 0x98, 0x7a, 0x9b, 0x04, 0x4a, 0x8e, 0x98, 0xc6, 0xb0, 0x87,
         0xf1, 0x5a, 0x0b, 0xfc]

/-! ## Whole messages -/

/-- The closed form of the digest of Engine-160 (42_streaming.md section 3, derived there): COMPRESS160 folded over the
blocks of `pad(m)` from the initial value, `floor((|m| + 8)/64) + 1` of them. -/
def Obligations.Hash160FoldsCompress160OverThePaddedMessage : Prop :=
  ∀ m : Bytes, ∃ blocks : List Block,
    blockBytes blocks = padMessage m ∧ blocks.length = (m.length + 8) / 64 + 1
    ∧ hash160 m = storeWords (blocks.foldl compress160 iv160).toList

/-- The closed form of the digest of Engine-320 (42_streaming.md section 3, derived there). -/
def Obligations.Hash320FoldsCompress320OverThePaddedMessage : Prop :=
  ∀ m : Bytes, ∃ blocks : List Block,
    blockBytes blocks = padMessage m ∧ blocks.length = (m.length + 8) / 64 + 1
    ∧ hash320 m = storeWords (blocks.foldl compress320 iv320).toList

/-- Chunking invariance on Engine-160 (42_streaming.md section 3, derived there; the pseudo-operation of 30_encoding.md
section 4): from every state, INIT, one UPDATE per chunk, however the message is cut, and FINAL all answer OK, and
FINAL's payload is the digest of the whole message. -/
def Obligations.ChunkingDoesNotChangeDigest160 : Prop :=
  ∀ (s : State) (chunks : List Bytes), ∃ t,
    execAll (.rmd160Init :: (chunks.map Instr.rmd160Update ++ [.rmd160Final])) s = .next t
    ∧ t.responses = s.responses ++ List.replicate (chunks.length + 1) [0x00] ++ [0x00 :: hash160 chunks.flatten]
    ∧ t.c160.phase = .spent ∧ t.c320 = s.c320

/-- Chunking invariance on Engine-320. -/
def Obligations.ChunkingDoesNotChangeDigest320 : Prop :=
  ∀ (s : State) (chunks : List Bytes), ∃ t,
    execAll (.rmd320Init :: (chunks.map Instr.rmd320Update ++ [.rmd320Final])) s = .next t
    ∧ t.responses = s.responses ++ List.replicate (chunks.length + 1) [0x00] ++ [0x00 :: hash320 chunks.flatten]
    ∧ t.c320.phase = .spent ∧ t.c160 = s.c160

/-- RMD320.HMAC equals the host-driven sequence on Engine-320 (43_hmac.md section 3, derived there), from every state: the
payload of the second FINAL is the payload of the command. -/
def Obligations.Rmd320HmacEqualsItsCommandSequence : Prop :=
  ∀ (s : State) (key msg kred : Bytes), kred = (if 64 < key.length then hash320 key else key) →
    ∃ (inner tag : Bytes) (t u : State),
      execAll [.rmd320Init, .rmd320Update (hmacPad kred 0x36), .rmd320Update msg, .rmd320Final] s = .next t
      ∧ t.responses = s.responses ++ [[0x00], [0x00], [0x00], 0x00 :: inner]
      ∧ execAll [.rmd320Init, .rmd320Update (hmacPad kred 0x5c), .rmd320Update inner, .rmd320Final] t = .next u
      ∧ u.responses = t.responses ++ [[0x00], [0x00], [0x00], 0x00 :: tag]
      ∧ exec (.rmd320Hmac key msg) s = .next { s with responses := s.responses ++ [0x00 :: tag] }

/-- Digests of whole messages (vectors S1, S2, G1, G3 of 95_test_vectors.md; S2 with the last digit 90_conflicts.md C1
gives it). -/
def Obligations.DigestsOfTheEmptyMessageAndAbc : Prop :=
  hash160 [] = [0x9c, 0x11, 0x85, 0xa5, 0xc5, 0xe9, 0xfc, 0x54, 0x61, 0x28, 0x08, 0x97, 0x7e, 0xe8, 0xf5, 0x48,
    0xb2, 0x25, 0x8d, 0x31]
  ∧ hash160 [0x61, 0x62, 0x63] = [0x8e, 0xb2, 0x08, 0xf7, 0xe0, 0x5d, 0x98, 0x7a, 0x9b, 0x04, 0x4a, 0x8e, 0x98, 0xc6,
    0xb0, 0x87, 0xf1, 0x5a, 0x0b, 0xfc]
  ∧ hash320 [] = [0x22, 0xd6, 0x5d, 0x56, 0x61, 0x53, 0x6c, 0xdc, 0x75, 0xc1, 0xfd, 0xf5, 0xc6, 0xde, 0x7b, 0x41,
    0xb9, 0xf2, 0x73, 0x25, 0xeb, 0xc6, 0x1e, 0x85, 0x57, 0x17, 0x7d, 0x70, 0x5a, 0x0e, 0xc8, 0x80,
    0x15, 0x1c, 0x3a, 0x32, 0xa0, 0x08, 0x99, 0xb8]
  ∧ hash320 [0x61, 0x62, 0x63] = [0xde, 0x4c, 0x01, 0xb3, 0x05, 0x4f, 0x89, 0x30, 0xa7, 0x9d, 0x09, 0xae, 0x73, 0x8e,
    0x92, 0x30, 0x1e, 0x5a, 0x17, 0x08, 0x5b, 0xef, 0xfd, 0xc1, 0xb8, 0xd1, 0x16, 0x71, 0x3e, 0x74,
    0xf8, 0x2f, 0xa9, 0x42, 0xd6, 0x4c, 0xdb, 0xc4, 0x68, 0x2d]

/-! ## The whole machine -/

/-- The phases after reset are UNINIT (10_state.md section 6). That State.reset holds the parameter HMAC160_PRESENT, at
false, is the model's choice (log 3): 00_scope.md section 3 leaves the parameter open with that default, and reset does
not change it. The other registers are unspecified after reset; the zeros `State.reset` holds in them are the model's
choice too (log 4) and no part of this statement. -/
def Obligations.ResetLeavesBothContextsUninit : Prop :=
  State.reset.c160.phase = .uninit ∧ State.reset.c320.phase = .uninit
  ∧ State.reset.params.hmac160Present = false

/-- R19: the codes of the three phases, that the code 3 is never held, and which phase accepts UPDATE and FINAL. -/
def Obligations.PhasesHaveTheirCodes : Prop :=
  phaseCode .uninit = 0 ∧ phaseCode .active = 1 ∧ phaseCode .spent = 2
  ∧ ∀ p, phaseCode p ≠ 3 ∧ (acceptsData p = true ↔ p = .active)

/-- The invariant holds at reset. -/
def Obligations.InvariantHoldsAtReset : Prop := State.reset.Inv

/-- The invariant of both contexts (10_state.md section 4): while a context is ACTIVE its fill is at most 63 and its byte
counter is a multiple of 64. Every step keeps it, from every state that has it. -/
def Obligations.EveryStepKeepsTheContextInvariant : Prop :=
  ∀ s t : State, s.Inv → step s = .next t → t.Inv

/-- What each command leaves unchanged (42_streaming.md section 3; 43_hmac.md section 2; 44_hex.md): the commands of one
engine leave the other's bank alone, UPDATE leaves its phase alone, HMAC and HEX leave both banks alone, and no command
changes the parameter, the host's further events or an earlier response. -/
def Obligations.CommandsLeaveTheRestUnchanged : Prop :=
  ∀ (i : Instr) (s t : State), exec i s = .next t →
    t.params = s.params ∧ t.pending = s.pending
    ∧ (∃ response, t.responses = s.responses ++ [response])
    ∧ match i with
      | .rmd160Init => t.c320 = s.c320
      | .rmd160Update _ => t.c320 = s.c320 ∧ t.c160.phase = s.c160.phase
      | .rmd160Final => t.c320 = s.c320
      | .rmd160Hmac _ _ => t.c160 = s.c160 ∧ t.c320 = s.c320
      | .rmd320Init => t.c160 = s.c160
      | .rmd320Update _ => t.c160 = s.c160 ∧ t.c320.phase = s.c320.phase
      | .rmd320Final => t.c160 = s.c160
      | .rmd320Hmac _ _ => t.c160 = s.c160 ∧ t.c320 = s.c320
      | .hex _ => t.c160 = s.c160 ∧ t.c320 = s.c320

/-- The lifecycle table (70_reset_and_hazards.md section 1, derived there): the phase of each context after each command. -/
def Obligations.CommandsMoveThePhasesByTheLifecycle : Prop :=
  ∀ (i : Instr) (s t : State), exec i s = .next t →
    t.c160.phase = (match i with
      | .rmd160Init => .active
      | .rmd160Update _ => s.c160.phase
      | .rmd160Final => if s.c160.phase = .active then .spent else s.c160.phase
      | .rmd160Hmac _ _ => s.c160.phase
      | .rmd320Init => s.c160.phase
      | .rmd320Update _ => s.c160.phase
      | .rmd320Final => s.c160.phase
      | .rmd320Hmac _ _ => s.c160.phase
      | .hex _ => s.c160.phase)
    ∧ t.c320.phase = (match i with
      | .rmd160Init => s.c320.phase
      | .rmd160Update _ => s.c320.phase
      | .rmd160Final => s.c320.phase
      | .rmd160Hmac _ _ => s.c320.phase
      | .rmd320Init => .active
      | .rmd320Update _ => s.c320.phase
      | .rmd320Final => if s.c320.phase = .active then .spent else s.c320.phase
      | .rmd320Hmac _ _ => s.c320.phase
      | .hex _ => s.c320.phase)

/-- UNINIT is entered only by reset: no request leads back to it (70_reset_and_hazards.md section 1, derived there). -/
def Obligations.OnlyResetReturnsToUninit : Prop :=
  ∀ s t : State, step s = .next t → (∀ es, s.pending ≠ .reset :: es) →
    (t.c160.phase = .uninit → s.c160.phase = .uninit) ∧ (t.c320.phase = .uninit → s.c320.phase = .uninit)

/-- Faults are precise and leave no trace (60_exceptions.md section 2): a request whose response has a non-zero status gets
that one byte, 0x01 or 0x02, as its whole response, and changes nothing but that it is taken. -/
def Obligations.FaultsLeaveEveryRegisterUnchanged : Prop :=
  ∀ (s t : State) (frame : Bytes) (es : List HostEvent) (status : Byte) (payload : Bytes),
    s.pending = .request frame :: es → step s = .next t →
    t.responses = s.responses ++ [status :: payload] → status ≠ 0x00 →
      payload = [] ∧ (status = 0x01 ∨ status = 0x02)
      ∧ t = { s with pending := es, responses := s.responses ++ [[status]] }

/-- After a fault the next request runs exactly as if the faulting one had not been sent (60_exceptions.md section 2): same
response, same registers, only the earlier responses differ. -/
def Obligations.RequestAfterAFaultRunsAsIfItWereFirst : Prop :=
  ∀ (s t u : State) (bad frame : Bytes) (es : List HostEvent) (status : Byte),
    s.pending = .request bad :: .request frame :: es → step s = .next t →
    t.responses = s.responses ++ [[status]] → status ≠ 0x00 → step t = .next u →
      ∃ response, u.responses = s.responses ++ [[status], response]
        ∧ step { s with pending := .request frame :: es }
            = .next { u with responses := s.responses ++ [response] }

/-- No response ever depends on a stale buffer byte, on a register that is unspecified after reset or FINAL, or on a free
value (10_state.md sections 5 and 6, derived there): from states the host cannot tell apart a step gives states the host
cannot tell apart. -/
def Obligations.UnspecifiedRegistersAreNeverObserved : Prop :=
  ∀ s s' t : State, s.Inv → s'.Inv → s.Similar s' → step s = .next t →
    ∃ t', step s' = .next t' ∧ t.Similar t'

/-- The two engines do not alias (20_memory.md section 4; 42_streaming.md section 3, derived there): a streaming command of
Engine-160 and one of Engine-320 give the same responses and the same contexts, up to what no response can tell apart, in
either order. -/
def Obligations.CommandsOfTheTwoEnginesCommute : Prop :=
  ∀ (s : State) (i j : Instr),
    (i = .rmd160Init ∨ (∃ data, i = .rmd160Update data) ∨ i = .rmd160Final) →
    (j = .rmd320Init ∨ (∃ data, j = .rmd320Update data) ∨ j = .rmd320Final) →
    ∃ (t u : State) (a b : Bytes),
      execAll [i, j] s = .next t ∧ execAll [j, i] s = .next u
      ∧ t.responses = s.responses ++ [a, b] ∧ u.responses = s.responses ++ [b, a]
      ∧ t.c160.Similar u.c160 ∧ t.c320.Similar u.c320

/-- Instances of a platform share nothing (60_exceptions.md section 3): when one takes a step, it takes its own step of the
single-instance model, and every other is as before. -/
def Obligations.InstancesOfAPlatformAreIndependent : Prop :=
  ∀ (p : Platform) (k : Nat) (s : State), p.instances[k]? = some s →
    ∃ (t : State) (q : Platform), step s = .next t ∧ platformStep k p = .next q
      ∧ q.instances.length = p.instances.length ∧ q.instances[k]? = some t
      ∧ ∀ j, j ≠ k → q.instances[j]? = p.instances[j]?
end

