-- ==== Sys2Proof/Laws/Bits.lean ====
section
/-! SUPPORT. Lengths and round trips of the byte-order operations (20_memory.md R33 to R35), and the counters as natural
numbers (42_streaming.md R92, R98). -/

namespace Sys2Proof.Machine

@[simp] theorem st32le_length (v : Word) : (st32le v).length = 4 := rfl

@[simp] theorem st64le_length (v : Dword) : (st64le v).length = 8 := rfl

@[simp] theorem zeros_length (n : Nat) : (zeros n).length = n := List.length_replicate

@[simp] theorem bitlen160_length (len : Dword) : (bitlen160 len).length = 8 := rfl

@[simp] theorem bitlen320_length (lo hi : Word) : (bitlen320 lo hi).length = 8 := rfl

theorem storeWords_cons (w : Word) (ws : List Word) : storeWords (w :: ws) = st32le w ++ storeWords ws := rfl

@[simp] theorem storeWords_length (ws : List Word) : (storeWords ws).length = 4 * ws.length := by
  induction ws with
  | nil => rfl
  | cons w ws ih => rw [storeWords_cons]; simp [ih]; omega

theorem byte_toNat (v : Word) (k : Nat) : (v.extractLsb' k 8).toNat = v.toNat / 2 ^ k % 256 := by
  simp [BitVec.extractLsb'_toNat, Nat.shiftRight_eq_div_pow]

/-- A stored word at the front of a byte string is read back by `LE32` (R34). -/
theorem le32_st32le_append (v : Word) (rest : Bytes) : le32 (st32le v ++ rest) 0 = v := by
  apply BitVec.eq_of_toNat_eq
  have hv := v.isLt
  simp only [le32, st32le, List.cons_append, List.getD_cons_zero, List.getD_cons_succ, byte_toNat, BitVec.toNat_ofNat]
  omega

/-- The first four bytes of a string are what `ST32LE` makes of the word `LE32` reads there. -/
theorem st32le_le32 (s : Bytes) (h : 4 ≤ s.length) : st32le (le32 s 0) = s.take 4 := by
  obtain ⟨a, b, c, d, rest, rfl⟩ : ∃ a b c d rest, s = a :: b :: c :: d :: rest := by
    match s, h with
    | a :: b :: c :: d :: rest, _ => exact ⟨a, b, c, d, rest, rfl⟩
  have ha := a.isLt
  have hb := b.isLt
  have hc := c.isLt
  have hd := d.isLt
  simp only [st32le, le32, List.getD_cons_zero, List.getD_cons_succ, List.take_succ_cons, List.take_zero]
  congr 1
  · apply BitVec.eq_of_toNat_eq; rw [byte_toNat, BitVec.toNat_ofNat]; omega
  congr 1
  · apply BitVec.eq_of_toNat_eq; rw [byte_toNat, BitVec.toNat_ofNat]; omega
  congr 1
  · apply BitVec.eq_of_toNat_eq; rw [byte_toNat, BitVec.toNat_ofNat]; omega
  congr 1
  · apply BitVec.eq_of_toNat_eq; rw [byte_toNat, BitVec.toNat_ofNat]; omega

/-- `LE32` at an offset reads the string from that offset on. -/
theorem le32_drop (s : Bytes) (p i : Nat) : le32 (s.drop p) i = le32 s (p + i) := by
  simp [le32, List.getD_eq_getElem?_getD, Nat.add_assoc]

theorem advance160_toNat (len : Dword) (k : Nat) : (advance160 len k).toNat = (len.toNat + k) % 2 ^ 64 := by
  simp [advance160]

/-- The pair of `advance320` is the 64-bit sum, modulo 2^64 (R98). -/
theorem advance320_value (lo hi : Word) (k : Nat) (hk : k ≤ 64) :
    (advance320 lo hi k).2.toNat * 2 ^ 32 + (advance320 lo hi k).1.toNat
      = (hi.toNat * 2 ^ 32 + lo.toNat + k) % 2 ^ 64 := by
  have h1 := lo.isLt
  have h2 := hi.isLt
  simp only [advance320]
  split <;> simp only [BitVec.toNat_ofNat] <;> omega

end Sys2Proof.Machine
end

