-- ==== Sys2Proof/Laws/Buffer.lean ====
section
/-! SUPPORT. What the buffer operations do to byte strings: writing bytes, cutting an operand into whole blocks, absorbing an
operand (42_streaming.md R91, R106), and the blocks FINAL compresses (R93, R105). -/

namespace Sys2Proof.Machine

@[simp] theorem block_length (b : Block) : b.toList.length = 64 := by simp

theorem set_toList (buf : Block) (i : Nat) (b : Byte) (h : i < 64) :
    (buf.setIfInBounds i b).toList = buf.toList.take i ++ b :: buf.toList.drop (i + 1) := by
  rw [show (buf.setIfInBounds i b).toList = buf.toList.set i b by simp [Vector.toList_setIfInBounds],
    List.set_eq_take_append_cons_drop, if_pos (by simpa using h)]

/-- Writing bytes that fit replaces exactly them. -/
theorem writeBytes_toList (bs : Bytes) (buf : Block) (i : Nat) (h : i + bs.length ≤ 64) :
    (writeBytes buf i bs).toList = buf.toList.take i ++ bs ++ buf.toList.drop (i + bs.length) := by
  induction bs generalizing buf i with
  | nil => simp [writeBytes]
  | cons b bs ih =>
    simp only [List.length_cons] at h
    have hl : (buf.toList.take i).length = i := by rw [List.length_take, block_length]; omega
    have ht (A D : Bytes) (hA : A.length = i) : (A ++ b :: D).take (i + 1) = A ++ [b] := by
      subst hA; simp [List.take_append]
    have hd (A D : Bytes) (n : Nat) (hA : A.length = i) : (A ++ b :: D).drop (i + 1 + n) = D.drop n := by
      subst hA
      rw [List.drop_append, List.drop_eq_nil_of_le (by omega), show A.length + 1 + n - A.length = n + 1 by omega]
      rfl
    rw [writeBytes, ih _ _ (by omega), set_toList _ _ _ (by omega), ht _ _ hl, hd _ _ _ hl, List.drop_drop]
    rw [show i + 1 + bs.length = i + (bs.length + 1) by omega]
    simp

/-- A block made of at least 64 bytes holds the first 64 of them. -/
theorem blockOf_toList (bs : Bytes) (h : 64 ≤ bs.length) : (blockOf bs).toList = bs.take 64 := by
  have hl : (bs.take 64).length = 64 := by simp; omega
  rw [blockOf, writeBytes_toList _ _ _ (by omega), hl]
  simp

@[simp] theorem wholeBlocks_length (bs : Bytes) : (wholeBlocks bs).length = bs.length / 64 := by
  simp [wholeBlocks]

@[simp] theorem tailBytes_length (bs : Bytes) : (tailBytes bs).length = bs.length % 64 := by
  simp [tailBytes]; omega

@[simp] theorem blockBytes_nil : blockBytes [] = [] := rfl

@[simp] theorem blockBytes_append (a b : List Block) : blockBytes (a ++ b) = blockBytes a ++ blockBytes b := by
  simp [blockBytes]

theorem blockBytes_singleton (b : Block) : blockBytes [b] = b.toList := by simp [blockBytes]

@[simp] theorem blockBytes_length (bl : List Block) : (blockBytes bl).length = 64 * bl.length := by
  induction bl with
  | nil => rfl
  | cons b bl ih =>
    rw [show b :: bl = [b] ++ bl from rfl, blockBytes_append, List.length_append, ih, blockBytes_singleton,
      block_length, List.length_append]
    simp; omega

/-- The first k whole chunks are the first 64·k bytes. -/
theorem blockBytes_chunks (bs : Bytes) (k : Nat) (h : 64 * k ≤ bs.length) :
    blockBytes ((List.range k).map fun k => blockOf (bs.drop (64 * k))) = bs.take (64 * k) := by
  induction k with
  | zero => simp
  | succ k ih =>
    rw [List.range_succ, List.map_append, blockBytes_append, ih (by omega), List.map_singleton, blockBytes_singleton,
      blockOf_toList _ (by simp; omega), show 64 * (k + 1) = 64 * k + 64 by omega, List.take_add]

/-- The whole chunks and the tail are the whole string. -/
theorem blockBytes_wholeBlocks (bs : Bytes) : blockBytes (wholeBlocks bs) ++ tailBytes bs = bs := by
  rw [wholeBlocks, blockBytes_chunks _ _ (by omega), tailBytes, List.take_append_drop]

/-- Everything the buffer part of an UPDATE does, when the buffer is not full (R91): no byte is lost, and what stays is
fewer than 64 bytes. -/
theorem absorb_spec (buf : Block) (fill : Nat) (data : Bytes) (h : fill ≤ 63) :
    blockBytes (absorb buf fill data).blocks ++ (absorb buf fill data).buf.toList.take (absorb buf fill data).fill
        = buf.toList.take fill ++ data
      ∧ (absorb buf fill data).blocks.length = (fill + data.length) / 64
      ∧ (absorb buf fill data).fill = (fill + data.length) % 64 := by
  have hbl := block_length buf
  have hrest (first : List Block) (b : Block) (f : Nat) (rest : Bytes) (hf : f + rest.length % 64 ≤ 64) :
      blockBytes (absorbRest first b f rest).blocks
          ++ (absorbRest first b f rest).buf.toList.take (absorbRest first b f rest).fill
        = blockBytes first ++ blockBytes (wholeBlocks rest) ++ (b.toList.take f ++ tailBytes rest) := by
    have hl : (b.toList.take f ++ tailBytes rest).length = f + (tailBytes rest).length := by
      rw [List.length_append, List.length_take, block_length]; omega
    simp only [absorbRest, blockBytes_append]
    rw [writeBytes_toList _ _ _ (by rw [tailBytes_length]; omega), ← hl, List.take_left]
  have htake (hn : fill + data.length < 64) : data.length / 64 = 0 := by omega
  by_cases h0 : fill = 0
  · subst h0
    have hw : absorb buf 0 data = absorbRest [] buf 0 data := by simp [absorb, topOff, writeBytes]
    rw [hw]
    refine ⟨?_, by simp [absorbRest], by simp [absorbRest]⟩
    rw [hrest _ _ _ _ (by omega)]
    simp [blockBytes_wholeBlocks]
  · have hpos : 0 < fill := by omega
    have htop : topOff fill data.length = min (64 - fill) data.length := by simp [topOff, hpos]
    by_cases hfull : 64 ≤ fill + data.length
    · have ht : topOff fill data.length = 64 - fill := by omega
      have hdl : (data.take (64 - fill)).length = 64 - fill := by rw [List.length_take]; omega
      have hb : (writeBytes buf fill (data.take (64 - fill))).toList = buf.toList.take fill ++ data.take (64 - fill) := by
        rw [writeBytes_toList _ _ _ (by omega), hdl, List.drop_eq_nil_of_le (by omega), List.append_nil]
      have hw : absorb buf fill data = absorbRest [writeBytes buf fill (data.take (64 - fill))]
          (writeBytes buf fill (data.take (64 - fill))) 0 (data.drop (64 - fill)) := by
        simp only [absorb, ht]; rw [if_pos ⟨hpos, by omega⟩]
      rw [hw]
      refine ⟨?_, ?_, ?_⟩
      · rw [hrest _ _ _ _ (by omega), blockBytes_singleton, hb, List.take_zero, List.nil_append, List.append_assoc,
          blockBytes_wholeBlocks, List.append_assoc, List.take_append_drop]
      · simp [absorbRest]; omega
      · simp [absorbRest]; omega
    · have ht : topOff fill data.length = data.length := by omega
      have hw : absorb buf fill data = absorbRest [] (writeBytes buf fill data) (fill + data.length) [] := by
        simp only [absorb, ht]; rw [if_neg (by omega), List.take_length, List.drop_length]
      have hl : (buf.toList.take fill ++ data).length = fill + data.length := by
        rw [List.length_append, List.length_take]; omega
      rw [hw]
      refine ⟨?_, ?_, ?_⟩
      · rw [hrest _ _ _ _ (by simp; omega), writeBytes_toList _ _ _ (by omega), ← hl, List.take_left]
        simp [wholeBlocks, tailBytes]
      · simp [absorbRest]; omega
      · simp [absorbRest]; omega

/-- The blocks FINAL compresses, when the buffer is not full (R105). -/
theorem padBlocks_spec (buf : Block) (fill : Nat) (lf : Bytes) (h : fill ≤ 63) (hl : lf.length = 8) :
    blockBytes (padBlocks buf fill lf)
        = buf.toList.take fill ++ [0x80] ++ zeros (if fill ≤ 55 then 55 - fill else 119 - fill) ++ lf
      ∧ (padBlocks buf fill lf).length = if fill ≤ 55 then 1 else 2 := by
  have hbl := block_length buf
  have hml : (buf.toList.take fill ++ [(0x80 : Byte)]).length = fill + 1 := by
    rw [List.length_append, List.length_take]; simp; omega
  have hmark : (buf.setIfInBounds fill 0x80).toList
      = (buf.toList.take fill ++ [0x80]) ++ buf.toList.drop (fill + 1) := by
    rw [set_toList _ _ _ (by omega)]; simp
  have hfilled (k : Nat) (hk : fill + 1 + k ≤ 64) :
      (writeBytes (buf.setIfInBounds fill 0x80) (fill + 1) (zeros k)).toList
        = buf.toList.take fill ++ [0x80] ++ zeros k ++ buf.toList.drop (fill + 1 + k) := by
    rw [writeBytes_toList _ _ _ (by rw [zeros_length]; omega), zeros_length, hmark, ← hml, List.take_left,
      List.drop_append, List.drop_eq_nil_of_le (by omega), List.drop_drop, List.nil_append, hml]
    rw [show fill + 1 + k - (fill + 1) = k by omega]
  by_cases hf : fill ≤ 55
  · rw [padBlocks, if_neg (by simp [rollsOver]; omega), if_pos hf, if_pos hf]
    refine ⟨?_, rfl⟩
    have ht (A D : Bytes) (hA : A.length = 56) : (A ++ D).take 56 = A := by rw [← hA, List.take_left]
    have hl56 : (buf.toList.take fill ++ [(0x80 : Byte)] ++ zeros (56 - (fill + 1))).length = 56 := by
      rw [List.length_append, hml, zeros_length]; omega
    rw [blockBytes_singleton, writeBytes_toList _ _ _ (by omega), hfilled _ (by omega), hl, ht _ _ hl56,
      List.drop_eq_nil_of_le (by rw [List.length_append, hl56, List.length_drop]; omega), List.append_nil,
      show 55 - fill = 56 - (fill + 1) by omega]
  · rw [padBlocks, if_pos (by simp [rollsOver]; omega), if_neg hf, if_neg hf]
    refine ⟨?_, rfl⟩
    have hz : (writeBytes (writeBytes zeroBlock 0 (zeros 56)) 56 lf).toList = zeros 56 ++ lf := by
      rw [writeBytes_toList _ _ _ (by omega), writeBytes_toList _ _ _ (by simp), hl]
      simp [zeros, zeroBlock]
    rw [show ∀ a b : Block, [a, b] = [a] ++ [b] from fun _ _ => rfl, blockBytes_append, blockBytes_singleton,
      blockBytes_singleton, hz, hfilled _ (by omega), List.drop_eq_nil_of_le (by omega), List.append_nil]
    rw [show zeros (119 - fill) = zeros (64 - (fill + 1)) ++ zeros 56 by
      rw [zeros, zeros, zeros, List.replicate_append_replicate]; congr 1; omega]
    simp only [List.append_assoc]

theorem advanceBlocks160_toNat (len : Dword) (n : Nat) :
    (advanceBlocks160 len n).toNat = (len.toNat + 64 * n) % 2 ^ 64 := by
  induction n generalizing len with
  | zero => simp [advanceBlocks160, Nat.mod_eq_of_lt len.isLt]
  | succ n ih => rw [advanceBlocks160, ih, advance160_toNat]; omega

theorem advanceBlocks320_value (l : Word × Word) (n : Nat) :
    (advanceBlocks320 l n).2.toNat * 2 ^ 32 + (advanceBlocks320 l n).1.toNat
      = (l.2.toNat * 2 ^ 32 + l.1.toNat + 64 * n) % 2 ^ 64 := by
  induction n generalizing l with
  | zero =>
    have h1 := l.1.isLt
    have h2 := l.2.isLt
    simp only [advanceBlocks320]; omega
  | succ n ih => rw [advanceBlocks320, ih, advance320_value _ _ _ (by omega)]; omega

end Sys2Proof.Machine
end

