-- ==== Sys2Proof/Laws/Context.lean ====
section
/-! SUPPORT. What INIT, UPDATE and FINAL do to one context, said once (42_streaming.md R90 to R101, R105 to R107), and the
lengths of digests and pads. -/

namespace Sys2Proof.Machine

theorem fill_toNat (n : Nat) (h : n ≤ 64) : (BitVec.ofNat 7 n).toNat = n := by rw [BitVec.toNat_ofNat]; omega

/-- Every byte of a buffer after bytes that fit are written into it. -/
theorem writeBytes_getElem? (bs : Bytes) (buf : Block) (a i : Nat) (h : a + bs.length ≤ 64) :
    (writeBytes buf a bs).toList[i]? = if a ≤ i ∧ i < a + bs.length then bs[i - a]? else buf.toList[i]? := by
  have hbl := block_length buf
  have hl : (buf.toList.take a).length = a := by rw [List.length_take]; omega
  rw [writeBytes_toList _ _ _ h]
  split
  · rw [List.getElem?_append_left (by rw [List.length_append]; omega), List.getElem?_append_right (by omega), hl]
  · by_cases h1 : i < a
    · rw [List.getElem?_append_left (by rw [List.length_append]; omega), List.getElem?_append_left (by omega),
        List.getElem?_take_of_lt h1]
    · rw [List.getElem?_append_right (by rw [List.length_append]; omega), List.length_append, hl, List.getElem?_drop]
      congr 1; omega

/-- Every byte of the buffer after the buffer part of an UPDATE, stale bytes included (R27, R91). -/
theorem absorb_getElem? (buf : Block) (fill : Nat) (data : Bytes) (hf : fill ≤ 63) (i : Nat) (hi : i < 64) :
    (absorb buf fill data).buf.toList[i]? =
      if fill + data.length < 64 then
        (if fill ≤ i ∧ i < fill + data.length then data[i - fill]? else buf.toList[i]?)
      else if i < (fill + data.length) % 64 then data[data.length - (fill + data.length) % 64 + i]?
      else if 0 < fill ∧ fill ≤ i then data[i - fill]? else buf.toList[i]? := by
  have htl (bs : Bytes) (k : Nat) : (tailBytes bs)[k]? = bs[64 * (bs.length / 64) + k]? := by
    rw [tailBytes, List.getElem?_drop]
  by_cases h0 : fill = 0
  · subst h0
    have hw : (absorb buf 0 data).buf = writeBytes buf 0 (tailBytes data) := by
      simp [absorb, topOff, writeBytes, absorbRest]
    rw [hw, writeBytes_getElem? _ _ _ _ (by rw [tailBytes_length]; omega), tailBytes_length, htl]
    split_ifs <;> first | rfl | omega | (congr 1; omega)
  · by_cases hfull : 64 ≤ fill + data.length
    · have ht : topOff fill data.length = 64 - fill := by rw [topOff, if_pos (by omega)]; omega
      have hdl : (data.take (64 - fill)).length = 64 - fill := by rw [List.length_take]; omega
      have hw : (absorb buf fill data).buf
          = writeBytes (writeBytes buf fill (data.take (64 - fill))) 0 (tailBytes (data.drop (64 - fill))) := by
        simp only [absorb, ht]; rw [if_pos ⟨by omega, by omega⟩]; rfl
      rw [hw, writeBytes_getElem? _ _ _ _ (by rw [tailBytes_length]; omega),
        writeBytes_getElem? _ _ _ _ (by omega), tailBytes_length, hdl, htl, List.length_drop, List.getElem?_drop]
      split_ifs <;> first | rfl | omega | (congr 1; omega) | (rw [List.getElem?_take_of_lt (by omega)])
    · have ht : topOff fill data.length = data.length := by rw [topOff, if_pos (by omega)]; omega
      have hw : (absorb buf fill data).buf = writeBytes buf fill data := by
        simp only [absorb, ht]
        rw [if_neg (by omega), List.take_length, List.drop_length]
        simp [absorbRest, tailBytes, writeBytes]
      rw [hw, writeBytes_getElem? _ _ _ _ (by omega), if_pos (by omega : fill + data.length < 64)]

/-- UPDATE on Engine-160: the bytes are cut into blocks, compressed and counted, and the rest stays (R91). -/
theorem update160_spec (c : Context160) (data : Bytes) (hf : c.fill.toNat ≤ 63) :
    ∃ blocks : List Block,
      blockBytes blocks ++ buffered (update160 c data).buf (update160 c data).fill = buffered c.buf c.fill ++ data
      ∧ blocks.length = (c.fill.toNat + data.length) / 64
      ∧ (update160 c data).fill.toNat = (c.fill.toNat + data.length) % 64
      ∧ (update160 c data).h = blocks.foldl compress160 c.h
      ∧ (update160 c data).len.toNat = (c.len.toNat + 64 * blocks.length) % 2 ^ 64 := by
  obtain ⟨h1, h2, h3⟩ := absorb_spec c.buf c.fill.toNat data hf
  have hfill : (update160 c data).fill.toNat = (absorb c.buf c.fill.toNat data).fill := fill_toNat _ (by omega)
  refine ⟨(absorb c.buf c.fill.toNat data).blocks, ?_, h2, hfill.trans h3, rfl, advanceBlocks160_toNat _ _⟩
  rw [buffered, hfill]; exact h1

/-- UPDATE on Engine-320 (R97). -/
theorem update320_spec (c : Context320) (data : Bytes) (hf : c.fill.toNat ≤ 63) :
    ∃ blocks : List Block,
      blockBytes blocks ++ buffered (update320 c data).buf (update320 c data).fill = buffered c.buf c.fill ++ data
      ∧ blocks.length = (c.fill.toNat + data.length) / 64
      ∧ (update320 c data).fill.toNat = (c.fill.toNat + data.length) % 64
      ∧ (update320 c data).h = blocks.foldl compress320 c.h
      ∧ counter320 (update320 c data) = (counter320 c + 64 * blocks.length) % 2 ^ 64 := by
  obtain ⟨h1, h2, h3⟩ := absorb_spec c.buf c.fill.toNat data hf
  have hfill : (update320 c data).fill.toNat = (absorb c.buf c.fill.toNat data).fill := fill_toNat _ (by omega)
  refine ⟨(absorb c.buf c.fill.toNat data).blocks, ?_, h2, hfill.trans h3, rfl, advanceBlocks320_value _ _⟩
  rw [buffered, hfill]; exact h1

/-- A byte of a 32-bit part of a 64-bit value. -/
theorem extract_extract (v : Dword) (a k : Nat) (h : k + 8 ≤ 32) :
    (v.extractLsb' a 32).extractLsb' k 8 = v.extractLsb' (a + k) 8 := by
  ext i hi
  simp only [BitVec.getElem_extractLsb', BitVec.getLsbD_extractLsb', Nat.add_assoc]
  rw [decide_eq_true (by omega), Bool.true_and]

/-- `ST64LE(v) = ST32LE(v[31:0]) ‖ ST32LE(v[63:32])` (R35). -/
theorem st64le_split (v : Dword) : st64le v = st32le (v.extractLsb' 0 32) ++ st32le (v.extractLsb' 32 32) := by
  simp only [st32le, extract_extract v _ 0 (by omega), extract_extract v _ 8 (by omega),
    extract_extract v _ 16 (by omega), extract_extract v _ 24 (by omega)]
  rfl

/-- The length field of Engine-160 once the counter holds the message length (R94). -/
theorem bitlen160_advance (len : Dword) (k : Nat) :
    bitlen160 (advance160 len k) = st64le (BitVec.ofNat 64 (8 * (len.toNat + k))) := by
  rw [bitlen160]
  congr 1
  apply BitVec.eq_of_toNat_eq
  rw [BitVec.toNat_shiftLeft, advance160_toNat, BitVec.toNat_ofNat, Nat.shiftLeft_eq]
  omega

/-- The high word of Engine-320's length field: the two terms have no bit in common (R100). -/
theorem bitlen320_high (lo hi : Word) :
    ((hi <<< 3) ||| (lo >>> 29)).toNat = (8 * hi.toNat) % 2 ^ 32 + lo.toNat / 2 ^ 29 := by
  have h : (hi <<< 3) ||| (lo >>> 29) = (hi <<< 3) + (lo >>> 29) := by
    rw [← BitVec.add_eq_or_of_and_eq_zero]
    ext i hi'
    simp
    intro h3 _
    apply BitVec.getLsbD_of_ge; omega
  have h1 := lo.isLt
  rw [h, BitVec.toNat_add, BitVec.toNat_shiftLeft, BitVec.toNat_ushiftRight, Nat.shiftLeft_eq,
    Nat.shiftRight_eq_div_pow]
  omega

/-- The length field of Engine-320 from the counter pair as one number (R100). -/
theorem bitlen320_value (lo hi : Word) :
    bitlen320 lo hi = st64le (BitVec.ofNat 64 (8 * (hi.toNat * 2 ^ 32 + lo.toNat))) := by
  have h1 := lo.isLt
  have h2 := hi.isLt
  rw [st64le_split, bitlen320]
  congr 2
  · apply BitVec.eq_of_toNat_eq
    rw [BitVec.toNat_shiftLeft, BitVec.extractLsb'_toNat, BitVec.toNat_ofNat, Nat.shiftLeft_eq,
      Nat.shiftRight_eq_div_pow]
    omega
  · apply BitVec.eq_of_toNat_eq
    rw [bitlen320_high, BitVec.extractLsb'_toNat, BitVec.toNat_ofNat, Nat.shiftRight_eq_div_pow]
    omega

/-- The blocks RMD160.FINAL compresses (R93, R105). -/
theorem finalBlocks160_spec (c : Context160) (hf : c.fill.toNat ≤ 63) :
    blockBytes (finalBlocks160 c) = buffered c.buf c.fill ++ [0x80]
        ++ zeros (if c.fill.toNat ≤ 55 then 55 - c.fill.toNat else 119 - c.fill.toNat)
        ++ st64le (BitVec.ofNat 64 (8 * (c.len.toNat + c.fill.toNat)))
      ∧ (finalBlocks160 c).length = if c.fill.toNat ≤ 55 then 1 else 2 := by
  rw [← bitlen160_advance]
  exact padBlocks_spec c.buf c.fill.toNat _ hf (bitlen160_length _)

/-- The blocks RMD320.FINAL compresses (R99, R105). -/
theorem finalBlocks320_spec (c : Context320) (hf : c.fill.toNat ≤ 63) :
    blockBytes (finalBlocks320 c) = buffered c.buf c.fill ++ [0x80]
        ++ zeros (if c.fill.toNat ≤ 55 then 55 - c.fill.toNat else 119 - c.fill.toNat)
        ++ st64le (BitVec.ofNat 64 (8 * (counter320 c + c.fill.toNat)))
      ∧ (finalBlocks320 c).length = if c.fill.toNat ≤ 55 then 1 else 2 := by
  have h := advance320_value c.lenLo c.lenHi c.fill.toNat (by omega)
  have hl : bitlen320 (advance320 c.lenLo c.lenHi c.fill.toNat).1 (advance320 c.lenLo c.lenHi c.fill.toNat).2
      = st64le (BitVec.ofNat 64 (8 * (counter320 c + c.fill.toNat))) := by
    rw [bitlen320_value, h]
    congr 1
    apply BitVec.eq_of_toNat_eq
    rw [BitVec.toNat_ofNat, BitVec.toNat_ofNat, counter320]
    omega
  rw [← hl]
  exact padBlocks_spec c.buf c.fill.toNat _ hf (bitlen320_length _ _)

@[simp] theorem hash160_length (m : Bytes) : (hash160 m).length = 20 := by simp [hash160, digest160]

@[simp] theorem hash320_length (m : Bytes) : (hash320 m).length = 40 := by simp [hash320, digest320]

end Sys2Proof.Machine
end

