-- ==== Sys2Proof/Laws/Decode.lean ====
section
/-! SUPPORT. What one operand field decodes to, in both directions (30_encoding.md R49, R50). -/

namespace Sys2Proof

open Sys2Proof.Machine

/-- A length word reads back as the length it was made from, when the length fits. -/
theorem length_word_toNat (data : Bytes) (h : data.length < 2 ^ 32) :
    (BitVec.ofNat 32 data.length).toNat = data.length := by
  rw [BitVec.toNat_ofNat, Nat.mod_eq_of_lt h]

theorem operandFits_iff (data : Bytes) : operandFits data = true ↔ data.length < 2 ^ 32 := by
  rw [operandFits, decide_eq_true_iff, Config.maxLen]; omega

@[simp] theorem encodeField_length (data : Bytes) : (encodeField data).length = 4 + data.length := by
  simp [encodeField]

/-- An encoded field at the front of a string is taken whole. -/
theorem takeField_encodeField (data rest : Bytes) (h : data.length < 2 ^ 32) :
    takeField (encodeField data ++ rest) = .ok (data, rest) := by
  have hn : (le32 (encodeField data ++ rest) 0).toNat = data.length := by
    rw [encodeField, List.append_assoc, le32_st32le_append, length_word_toNat _ h]
  have hd : (encodeField data ++ rest).drop 4 = data ++ rest := rfl
  rw [takeField, if_neg (by rw [List.length_append, encodeField_length]; omega), hn, hd, if_neg (by simp), List.take_left, List.drop_left]

/-- A field that is taken stands encoded at the front of the string. -/
theorem takeField_ok {bs data rest : Bytes} (h : takeField bs = .ok (data, rest)) :
    bs = encodeField data ++ rest ∧ data.length < 2 ^ 32 := by
  unfold takeField at h
  split at h
  · cases h
  · rename_i h4
    split at h
    · cases h
    · rename_i hn
      cases h
      have hlt := (le32 bs 0).isLt
      have hl : ((bs.drop 4).take (le32 bs 0).toNat).length = (le32 bs 0).toNat := by
        rw [List.length_take]; omega
      refine ⟨?_, by omega⟩
      rw [encodeField, hl, BitVec.ofNat_toNat, BitVec.setWidth_eq, st32le_le32 _ (by omega), List.append_assoc,
        List.take_append_drop, List.take_append_drop]

/-- When a field is taken, told from lengths alone. -/
theorem takeField_isOk_iff (bs : Bytes) :
    (∃ d r, takeField bs = .ok (d, r)) ↔ 4 ≤ bs.length ∧ 4 + (le32 bs 0).toNat ≤ bs.length := by
  unfold takeField
  split
  · constructor
    · rintro ⟨_, _, h⟩; cases h
    · omega
  · split
    · rename_i h1 h2
      rw [List.length_drop] at h2
      constructor
      · rintro ⟨_, _, h⟩; cases h
      · omega
    · rename_i h1 h2
      rw [List.length_drop] at h2
      exact ⟨fun _ => by omega, fun _ => ⟨_, _, rfl⟩⟩

end Sys2Proof
end

