-- ==== Sys2Proof/Laws/PerInstr.lean ====
section
/-! SUPPORT. Statements about every command as syntax, one lemma per constructor. Family FrameLength: the frame of a command
is one byte and, per operand, four bytes and the operand (30_encoding.md R49, R51). -/

namespace Sys2Proof.Laws.FrameLength

open Sys2Proof

/-- `|frame| = 1 + Σ (4 + n_i)` for the frame of the command. -/
def Statement (i : Instr) : Prop := (encode i).length = 1 + (i.operands.map fun d => 4 + d.length).sum

theorem rmd160Init : Statement .rmd160Init := rfl
theorem rmd160Update (data : Bytes) : Statement (.rmd160Update data) := by
  simp [Statement, encode, Instr.operands]; omega
theorem rmd160Final : Statement .rmd160Final := rfl
theorem rmd160Hmac (key msg : Bytes) : Statement (.rmd160Hmac key msg) := by
  simp [Statement, encode, Instr.operands]; omega
theorem rmd320Init : Statement .rmd320Init := rfl
theorem rmd320Update (data : Bytes) : Statement (.rmd320Update data) := by
  simp [Statement, encode, Instr.operands]; omega
theorem rmd320Final : Statement .rmd320Final := rfl
theorem rmd320Hmac (key msg : Bytes) : Statement (.rmd320Hmac key msg) := by
  simp [Statement, encode, Instr.operands]; omega
theorem hex (data : Bytes) : Statement (.hex data) := by
  simp [Statement, encode, Instr.operands]; omega

end Sys2Proof.Laws.FrameLength
end

