-- ==== Sys2Proof/Laws/State.lean ====
section
/-! SUPPORT. What each update of State and of a context leaves in each field: one lemma per field per update, true by rfl, so
that no later proof unfolds a record update. -/

namespace Sys2Proof.Machine

@[simp] theorem respond_c160 (s : State) (st : Status) (p : Bytes) : (s.respond st p).c160 = s.c160 := rfl
@[simp] theorem respond_c320 (s : State) (st : Status) (p : Bytes) : (s.respond st p).c320 = s.c320 := rfl
@[simp] theorem respond_params (s : State) (st : Status) (p : Bytes) : (s.respond st p).params = s.params := rfl
@[simp] theorem respond_pending (s : State) (st : Status) (p : Bytes) : (s.respond st p).pending = s.pending := rfl
@[simp] theorem respond_responses (s : State) (st : Status) (p : Bytes) : (s.respond st p).responses = s.responses ++ [statusByte st :: p] := rfl
@[simp] theorem respond_freeCount (s : State) (st : Status) (p : Bytes) : (s.respond st p).freeCount = s.freeCount := rfl

@[simp] theorem raise_c160 (s : State) (st : Status) : (s.raise st).c160 = s.c160 := rfl
@[simp] theorem raise_c320 (s : State) (st : Status) : (s.raise st).c320 = s.c320 := rfl
@[simp] theorem raise_params (s : State) (st : Status) : (s.raise st).params = s.params := rfl
@[simp] theorem raise_pending (s : State) (st : Status) : (s.raise st).pending = s.pending := rfl
@[simp] theorem raise_responses (s : State) (st : Status) : (s.raise st).responses = s.responses ++ [[statusByte st]] := rfl
@[simp] theorem raise_freeCount (s : State) (st : Status) : (s.raise st).freeCount = s.freeCount := rfl

@[simp] theorem setC160_c160 (s : State) (c : Context160) : (s.setC160 c).c160 = c := rfl
@[simp] theorem setC160_c320 (s : State) (c : Context160) : (s.setC160 c).c320 = s.c320 := rfl
@[simp] theorem setC160_params (s : State) (c : Context160) : (s.setC160 c).params = s.params := rfl
@[simp] theorem setC160_pending (s : State) (c : Context160) : (s.setC160 c).pending = s.pending := rfl
@[simp] theorem setC160_responses (s : State) (c : Context160) : (s.setC160 c).responses = s.responses := rfl
@[simp] theorem setC160_freeCount (s : State) (c : Context160) : (s.setC160 c).freeCount = s.freeCount := rfl

@[simp] theorem setC320_c160 (s : State) (c : Context320) : (s.setC320 c).c160 = s.c160 := rfl
@[simp] theorem setC320_c320 (s : State) (c : Context320) : (s.setC320 c).c320 = c := rfl
@[simp] theorem setC320_params (s : State) (c : Context320) : (s.setC320 c).params = s.params := rfl
@[simp] theorem setC320_pending (s : State) (c : Context320) : (s.setC320 c).pending = s.pending := rfl
@[simp] theorem setC320_responses (s : State) (c : Context320) : (s.setC320 c).responses = s.responses := rfl
@[simp] theorem setC320_freeCount (s : State) (c : Context320) : (s.setC320 c).freeCount = s.freeCount := rfl

@[simp] theorem setPending_c160 (s : State) (es : List HostEvent) : (s.setPending es).c160 = s.c160 := rfl
@[simp] theorem setPending_c320 (s : State) (es : List HostEvent) : (s.setPending es).c320 = s.c320 := rfl
@[simp] theorem setPending_params (s : State) (es : List HostEvent) : (s.setPending es).params = s.params := rfl
@[simp] theorem setPending_pending (s : State) (es : List HostEvent) : (s.setPending es).pending = es := rfl
@[simp] theorem setPending_responses (s : State) (es : List HostEvent) : (s.setPending es).responses = s.responses := rfl
@[simp] theorem setPending_freeCount (s : State) (es : List HostEvent) : (s.setPending es).freeCount = s.freeCount := rfl

@[simp] theorem setParams_c160 (s : State) (p : Params) : (s.setParams p).c160 = s.c160 := rfl
@[simp] theorem setParams_c320 (s : State) (p : Params) : (s.setParams p).c320 = s.c320 := rfl
@[simp] theorem setParams_params (s : State) (p : Params) : (s.setParams p).params = p := rfl
@[simp] theorem setParams_pending (s : State) (p : Params) : (s.setParams p).pending = s.pending := rfl
@[simp] theorem setParams_responses (s : State) (p : Params) : (s.setParams p).responses = s.responses := rfl
@[simp] theorem setParams_freeCount (s : State) (p : Params) : (s.setParams p).freeCount = s.freeCount := rfl

@[simp] theorem drawFree_c160 (s : State) : (s.drawFree).c160 = s.c160 := rfl
@[simp] theorem drawFree_c320 (s : State) : (s.drawFree).c320 = s.c320 := rfl
@[simp] theorem drawFree_params (s : State) : (s.drawFree).params = s.params := rfl
@[simp] theorem drawFree_pending (s : State) : (s.drawFree).pending = s.pending := rfl
@[simp] theorem drawFree_responses (s : State) : (s.drawFree).responses = s.responses := rfl
@[simp] theorem drawFree_freeCount (s : State) : (s.drawFree).freeCount = s.freeCount + 1 := rfl

@[simp] theorem resetEvent_c160 (s : State) : (s.resetEvent).c160 = unspecified160 s.freeCount .uninit := rfl
@[simp] theorem resetEvent_c320 (s : State) : (s.resetEvent).c320 = unspecified320 s.freeCount .uninit := rfl
@[simp] theorem resetEvent_params (s : State) : (s.resetEvent).params = s.params := rfl
@[simp] theorem resetEvent_pending (s : State) : (s.resetEvent).pending = s.pending := rfl
@[simp] theorem resetEvent_responses (s : State) : (s.resetEvent).responses = s.responses := rfl
@[simp] theorem resetEvent_freeCount (s : State) : (s.resetEvent).freeCount = s.freeCount + 1 := rfl

@[simp] theorem unspecified160_phase (n : Nat) (p : Phase) : (unspecified160 n p).phase = p := rfl
@[simp] theorem unspecified320_phase (n : Nat) (p : Phase) : (unspecified320 n p).phase = p := rfl
@[simp] theorem init160_phase : init160.phase = .active := rfl
@[simp] theorem init320_phase : init320.phase = .active := rfl
@[simp] theorem update160_phase (c : Context160) (d : Bytes) : (update160 c d).phase = c.phase := rfl
@[simp] theorem update320_phase (c : Context320) (d : Bytes) : (update320 c d).phase = c.phase := rfl

end Sys2Proof.Machine
end

