-- ==== Sys2Proof/Laws/Step.lean ====
section
/-! SUPPORT. Said once: what the phase gate, one command and one step can do. -/

namespace Sys2Proof.Machine

theorem acceptsData_iff (p : Phase) : acceptsData p = true ↔ p = .active := by cases p <;> simp [acceptsData]

theorem whenActive_active (s done : State) : whenActive .active s done = .next done := rfl

theorem whenActive_inactive (p : Phase) (s done : State) (h : p ≠ .active) :
    whenActive p s done = .next (s.raise .invalidState) := by
  rw [whenActive, if_neg (by rwa [acceptsData_iff])]

/-- What the phase gate can answer (R127). -/
theorem whenActive_cases {p : Phase} {s done t : State} (h : whenActive p s done = .next t) :
    (p = .active ∧ t = done) ∨ (p ≠ .active ∧ t = s.raise .invalidState) := by
  by_cases hp : p = .active
  · subst hp; rw [whenActive_active] at h; cases h; exact .inl ⟨rfl, rfl⟩
  · rw [whenActive_inactive _ _ _ hp] at h; cases h; exact .inr ⟨hp, rfl⟩

/-- What a command can do: it raises `InvalidState` or, for RMD160.HMAC on an instance without it, `ContractViolation`; or it
has its effect. -/
theorem exec_cases {i : Instr} {s t : State} (h : exec i s = .next t) :
    t = s.raise .invalidState ∨ t = s.raise .contractViolation ∨
    (match i with
      | .rmd160Init => t = (s.setC160 init160).respond .ok []
      | .rmd160Update data => s.c160.phase = .active ∧ t = (s.setC160 (update160 s.c160 data)).respond .ok []
      | .rmd160Final => s.c160.phase = .active ∧
          t = ((s.setC160 (unspecified160 s.freeCount .spent)).drawFree).respond .ok (digest160 s.c160)
      | .rmd160Hmac key msg => s.params.hmac160Present = true ∧ t = s.respond .ok (hmacTag hash160 key msg)
      | .rmd320Init => t = (s.setC320 init320).respond .ok []
      | .rmd320Update data => s.c320.phase = .active ∧ t = (s.setC320 (update320 s.c320 data)).respond .ok []
      | .rmd320Final => s.c320.phase = .active ∧
          t = ((s.setC320 (unspecified320 s.freeCount .spent)).drawFree).respond .ok (digest320 s.c320)
      | .rmd320Hmac key msg => t = s.respond .ok (hmacTag hash320 key msg)
      | .hex data => t = s.respond .ok (hexChars data)) := by
  cases i with
  | rmd160Init => cases h; exact .inr (.inr rfl)
  | rmd160Update data => exact (whenActive_cases h).elim (fun h => .inr (.inr h)) (fun h => .inl h.2)
  | rmd160Final => exact (whenActive_cases h).elim (fun h => .inr (.inr h)) (fun h => .inl h.2)
  | rmd160Hmac key msg =>
    cases hp : s.params.hmac160Present with
    | true =>
      simp only [exec, execRmd160Hmac, hp, if_true] at h
      cases h; exact .inr (.inr ⟨rfl, rfl⟩)
    | false =>
      simp only [exec, execRmd160Hmac, hp] at h
      cases h; exact .inr (.inl rfl)
  | rmd320Init => cases h; exact .inr (.inr rfl)
  | rmd320Update data => exact (whenActive_cases h).elim (fun h => .inr (.inr h)) (fun h => .inl h.2)
  | rmd320Final => exact (whenActive_cases h).elim (fun h => .inr (.inr h)) (fun h => .inl h.2)
  | rmd320Hmac key msg => cases h; exact .inr (.inr rfl)
  | hex data => cases h; exact .inr (.inr rfl)

theorem step_idle (s : State) (h : s.pending = []) : step s = .next s := by simp [step, State.fetch, h]

theorem step_reset (s : State) (es : List HostEvent) (h : s.pending = .reset :: es) :
    step s = .next (s.setPending es).resetEvent := by simp [step, State.fetch, h]

theorem step_command (s : State) (frame : Bytes) (es : List HostEvent) (i : Instr)
    (h : s.pending = .request frame :: es) (hd : decode s.params frame = .ok i) :
    step s = exec i (s.setPending es) := by simp [step, State.fetch, h, hd]

theorem step_malformed (s : State) (frame : Bytes) (es : List HostEvent) (e : DecodeError)
    (h : s.pending = .request frame :: es) (hd : decode s.params frame = .error e) :
    step s = .next ((s.setPending es).raise .contractViolation) := by simp [step, State.fetch, h, hd]

/-- What one step can do: nothing, a reset, a command, or a `ContractViolation`. -/
theorem step_cases {s t : State} (h : step s = .next t) :
    (s.pending = [] ∧ t = s)
    ∨ (∃ es, s.pending = .reset :: es ∧ t = (s.setPending es).resetEvent)
    ∨ (∃ frame es i, s.pending = .request frame :: es ∧ decode s.params frame = .ok i
        ∧ exec i (s.setPending es) = .next t)
    ∨ (∃ frame es e, s.pending = .request frame :: es ∧ decode s.params frame = .error e
        ∧ t = (s.setPending es).raise .contractViolation) := by
  match hp : s.pending with
  | [] => rw [step_idle s hp] at h; cases h; exact .inl ⟨rfl, rfl⟩
  | .reset :: es => rw [step_reset s es hp] at h; cases h; exact .inr (.inl ⟨es, rfl, rfl⟩)
  | .request frame :: es =>
    match hd : decode s.params frame with
    | .ok i =>
      rw [step_command s frame es i hp hd] at h
      exact .inr (.inr (.inl ⟨frame, es, i, rfl, hd, h⟩))
    | .error e =>
      rw [step_malformed s frame es e hp hd] at h; cases h
      exact .inr (.inr (.inr ⟨frame, es, e, rfl, hd, rfl⟩))

end Sys2Proof.Machine
end

