-- ==== Sys2Proof/Tests/Slice0.lean ====
section
/-! SUPPORT. Our own tests: ill-formed terms that WellFormed refuses, frames written out from 30_encoding.md, steps with the
results of 95_test_vectors.md, and for every statement with hypotheses a state and operands that meet them all. -/

namespace Sys2Proof.Tests

open Sys2Proof Sys2Proof.Machine

/-! ## WellFormed: an operand one byte longer than MAXLEN is refused, wherever it stands -/

/-- 2^32 bytes: one more than a length word can tell (30_encoding.md R50). -/
def tooLong : Bytes := List.replicate (2 ^ 32) 0x00

theorem test_tooLong_does_not_fit : operandFits tooLong = false := by
  simp only [operandFits, tooLong, List.length_replicate, Config.maxLen]; decide

theorem test_longest_operand_fits : operandFits (List.replicate (2 ^ 32 - 1) 0x00) = true := by
  simp only [operandFits, List.length_replicate, Config.maxLen]; decide

theorem test_illformed_rmd160Update : (Instr.rmd160Update tooLong).wellFormed = false := test_tooLong_does_not_fit
theorem test_illformed_rmd320Update : (Instr.rmd320Update tooLong).wellFormed = false := test_tooLong_does_not_fit
theorem test_illformed_hex : (Instr.hex tooLong).wellFormed = false := test_tooLong_does_not_fit
theorem test_illformed_rmd160Hmac :
    (Instr.rmd160Hmac tooLong []).wellFormed = false ∧ (Instr.rmd160Hmac [] tooLong).wellFormed = false := by
  simp [Instr.wellFormed, test_tooLong_does_not_fit]
theorem test_illformed_rmd320Hmac :
    (Instr.rmd320Hmac tooLong []).wellFormed = false ∧ (Instr.rmd320Hmac [] tooLong).wellFormed = false := by
  simp [Instr.wellFormed, test_tooLong_does_not_fit]
theorem test_absent_rmd160Hmac : (Instr.rmd160Hmac [] []).present ⟨false⟩ = false := rfl

/-! ## Decode: frames written out from 30_encoding.md R49 to R58 -/

theorem test_decode_rmd160Init : decode ⟨false⟩ [0x10] = .ok .rmd160Init := rfl
/-- E2: three bytes of data, the length word little-endian. -/
theorem test_decode_rmd160Update :
    decode ⟨false⟩ [0x11, 0x03, 0x00, 0x00, 0x00, 0x61, 0x62, 0x63] = .ok (.rmd160Update [0x61, 0x62, 0x63]) := rfl
theorem test_decode_rmd160Final : decode ⟨false⟩ [0x12] = .ok .rmd160Final := rfl
theorem test_decode_rmd160Hmac :
    decode ⟨true⟩ [0x13, 0x02, 0x00, 0x00, 0x00, 0x6b, 0x65, 0x01, 0x00, 0x00, 0x00, 0x6d]
      = .ok (.rmd160Hmac [0x6b, 0x65] [0x6d]) := rfl
theorem test_decode_rmd320Init : decode ⟨false⟩ [0x20] = .ok .rmd320Init := rfl
theorem test_decode_rmd320Update : decode ⟨false⟩ [0x21, 0x00, 0x00, 0x00, 0x00] = .ok (.rmd320Update []) := rfl
theorem test_decode_rmd320Final : decode ⟨false⟩ [0x22] = .ok .rmd320Final := rfl
/-- `key` first, then `msg` (R51). -/
theorem test_decode_rmd320Hmac :
    decode ⟨false⟩ [0x23, 0x00, 0x00, 0x00, 0x00, 0x01, 0x00, 0x00, 0x00, 0x6d] = .ok (.rmd320Hmac [] [0x6d]) := rfl
theorem test_decode_hex : decode ⟨false⟩ [0x30, 0x01, 0x00, 0x00, 0x00, 0xff] = .ok (.hex [0xff]) := rfl
/-- A length word of 0x01000003, not 3: its top byte counts (R50). -/
theorem test_decode_long_length_word :
    decode ⟨false⟩ [0x30, 0x03, 0x00, 0x00, 0x01, 0x61, 0x62, 0x63] = .error .truncatedData := by decide
/-- The all-zero and the all-ones frame are malformed (R56). -/
theorem test_decode_zeros_ones :
    decode ⟨true⟩ [0x00] = .error (.reservedOpcode 0x00) ∧ decode ⟨true⟩ [0xff, 0xff] = .error (.reservedOpcode 0xff) := by
  decide
/-- 0x13 without HMAC160_PRESENT (R58). -/
theorem test_decode_absent_hmac160 :
    decode ⟨false⟩ [0x13, 0x00, 0x00, 0x00, 0x00, 0x00, 0x00, 0x00, 0x00] = .error (.reservedOpcode 0x13) := by decide
/-- A table word has only the opcode's bits; the operand words that follow are zeros. -/
theorem test_tableWord_hmac : decodeTableWord 8 0x23 = some (.rmd320Hmac [] []) := by decide
/-- Bit 0 of a table word is the least significant bit of the first byte, and byte 1 stands in bits 15 .. 8. -/
theorem test_tableWord_order : decodeTableWord 48 0xff0000000130 = some (.hex [0xff]) := by decide

/-! ## Steps -/

/-- The machine after reset with these host events to come. -/
def withEvents (es : List HostEvent) : State := { State.reset with pending := es }

/-- Both contexts right after INIT. -/
def initState : State := { State.reset with c160 := init160, c320 := init320 }

/-- Both contexts ACTIVE with `fill` buffered bytes 0x61 and 64 bytes counted. -/
def partlyState (fill : BitVec 7) : State :=
  { State.reset with
    c160 := { init160 with buf := Vector.replicate 64 0x61, fill := fill, len := 64 }
    c320 := { init320 with buf := Vector.replicate 64 0x61, fill := fill, lenLo := 64 } }

/-- Both contexts ACTIVE with these bytes, fewer than 64, received. -/
def receivedState (bs : Bytes) : State :=
  { State.reset with
    c160 := { init160 with buf := blockOf (bs ++ zeros 64), fill := BitVec.ofNat 7 bs.length }
    c320 := { init320 with buf := blockOf (bs ++ zeros 64), fill := BitVec.ofNat 7 bs.length } }

/-- An instance that has RMD160.HMAC. -/
def hmac160State : State := { State.reset with params := ⟨true⟩ }

/-- What a step answered, when it answered a next state. -/
def lastResponse (o : Host.Outcome State Fault Refusal) : Option Bytes :=
  match o with
  | .next s => s.responses.getLast?
  | .fault _ => none
  | .refused _ => none

/-- The two contexts after a step. -/
def contextsAfter (o : Host.Outcome State Fault Refusal) : Option (Context160 × Context320) :=
  match o with
  | .next s => some (s.c160, s.c320)
  | .fault _ => none
  | .refused _ => none

/-- The host's placement of a table word after reset: the very next step runs it. -/
theorem test_fetchWord_rmd320Init :
    lastResponse (step (State.reset.withFetchWord 8 0x20)) = some [0x00]
    ∧ (contextsAfter (step (State.reset.withFetchWord 8 0x20))).map (·.2.phase) = some .active := by decide
/-- 0x13 runs on an instance that has it; H1, the tag of the empty key and message. -/
theorem test_fetchWord_rmd160Hmac :
    lastResponse (step (State.reset.withFetchWord 8 0x13)) = some (0x00 ::
    [0x44, 0xd8, 0x6b, 0x65, 0x8a, 0x3e, 0x7c, 0xbc, 0x1a, 0x20, 0x10, 0x84, 0x8b, 0x53, 0xe3, 0x5c,
    0x91, 0x77, 0x20, 0xca]) := by decide +kernel

/-- R90: after reset, `h[0]` = 0x67452301 and `fill` = 0, whatever stood there. -/
theorem test_rmd160Init :
    (contextsAfter (exec .rmd160Init (partlyState 5))).map (fun c => (c.1.h[0], c.1.h[4], c.1.fill, c.1.buf[0]))
      = some (0x67452301, 0xC3D2E1F0, 0, 0x00) := by decide
/-- R96: after RMD320.INIT `h[5]` = 0x76543210, and Engine-160 keeps its fill. -/
theorem test_rmd320Init :
    (contextsAfter (exec .rmd320Init (partlyState 5))).map (fun c => (c.2.h[5], c.2.lenLo, c.2.lenHi, c.1.fill))
      = some (0x76543210, 0, 0, 5) := by decide
/-- R91: UPDATE "abc" after INIT leaves buf[0..2] = "abc", fill = 3, len = 0. -/
theorem test_rmd160Update_abc :
    (contextsAfter (exec (.rmd160Update [0x61, 0x62, 0x63]) initState)).map
      (fun c => (c.1.buf.toList.take 4, c.1.fill, c.1.len, c.1.h)) = some ([0x61, 0x62, 0x63, 0x00], 3, 0, iv160) := by
  decide
/-- M6: 64 bytes are compressed straight from the operand and not copied. -/
theorem test_rmd160Update_block :
    (contextsAfter (exec (.rmd160Update (List.replicate 64 0x61)) initState)).map
      (fun c => (c.1.h, c.1.fill, c.1.len, c.1.buf)) =
    some (#v[0xD42339F0, 0xCE5B9F6F, 0x2874A075, 0xDF67AAF1, 0xC6C1BE1C], 0, 64, zeroBlock) := by decide +kernel
/-- M6 for Engine-320. -/
theorem test_rmd320Update_block :
    (contextsAfter (exec (.rmd320Update (List.replicate 64 0x61)) initState)).map
      (fun c => (c.2.h, c.2.fill, c.2.lenLo, c.2.lenHi)) =
    some (#v[0xA862BAB1, 0x394A90FD, 0x92DEA3D3, 0xB573019B, 0x17C50C8B,
      0x105B31D3, 0x5C0DC59F, 0xB57541A6, 0xAB53A918, 0x20C2C4C2], 0, 64, 0) := by decide +kernel
/-- M7: the 63 bytes of a(65) in the buffer, then ba c1: the tail lands at buf[0] and buf[1] keeps the stale 08. -/
theorem test_rmd320Update_topoff :
    (contextsAfter (exec (.rmd320Update [0xba, 0xc1]) (receivedState
    [0x01, 0x08, 0x0f, 0x16, 0x1d, 0x24, 0x2b, 0x32, 0x39, 0x40, 0x47, 0x4e, 0x55, 0x5c, 0x63, 0x6a,
    0x71, 0x78, 0x7f, 0x86, 0x8d, 0x94, 0x9b, 0xa2, 0xa9, 0xb0, 0xb7, 0xbe, 0xc5, 0xcc, 0xd3, 0xda,
    0xe1, 0xe8, 0xef, 0xf6, 0xfd, 0x04, 0x0b, 0x12, 0x19, 0x20, 0x27, 0x2e, 0x35, 0x3c, 0x43, 0x4a,
    0x51, 0x58, 0x5f, 0x66, 0x6d, 0x74, 0x7b, 0x82, 0x89, 0x90, 0x97, 0x9e, 0xa5, 0xac, 0xb3]))).map
      (fun c => (c.2.h[0], c.2.fill, c.2.lenLo, c.2.buf[0], c.2.buf[1]))
      = some (0xD343B753, 1, 64, 0xc1, 0x08) := by decide +kernel
/-- S1: FINAL right after INIT answers the digest of the empty message, and the context is SPENT. -/
theorem test_rmd160Final_empty :
    lastResponse (exec .rmd160Final initState) = some (0x00 ::
    [0x9c, 0x11, 0x85, 0xa5, 0xc5, 0xe9, 0xfc, 0x54, 0x61, 0x28, 0x08, 0x97, 0x7e, 0xe8, 0xf5, 0x48,
    0xb2, 0x25, 0x8d, 0x31])
    ∧ (contextsAfter (exec .rmd160Final initState)).map (·.1.phase) = some .spent := by decide +kernel
/-- M3: 56 buffered bytes take two compressions. -/
theorem test_rmd160Final_rollover :
    lastResponse (exec .rmd160Final (receivedState
    [0x01, 0x08, 0x0f, 0x16, 0x1d, 0x24, 0x2b, 0x32, 0x39, 0x40, 0x47, 0x4e, 0x55, 0x5c, 0x63, 0x6a,
    0x71, 0x78, 0x7f, 0x86, 0x8d, 0x94, 0x9b, 0xa2, 0xa9, 0xb0, 0xb7, 0xbe, 0xc5, 0xcc, 0xd3, 0xda,
    0xe1, 0xe8, 0xef, 0xf6, 0xfd, 0x04, 0x0b, 0x12, 0x19, 0x20, 0x27, 0x2e, 0x35, 0x3c, 0x43, 0x4a,
    0x51, 0x58, 0x5f, 0x66, 0x6d, 0x74, 0x7b, 0x82])) = some (0x00 ::
    [0x55, 0x78, 0xc4, 0x62, 0x24, 0xcc, 0x2d, 0xe8, 0xe3, 0xc7, 0x09, 0xd5, 0xf7, 0x04, 0x78, 0xf0,
    0x53, 0x9c, 0x07, 0x1f]) := by decide +kernel
/-- G1. -/
theorem test_rmd320Final_empty :
    lastResponse (exec .rmd320Final initState) = some (0x00 ::
    [0x22, 0xd6, 0x5d, 0x56, 0x61, 0x53, 0x6c, 0xdc, 0x75, 0xc1, 0xfd, 0xf5, 0xc6, 0xde, 0x7b, 0x41,
    0xb9, 0xf2, 0x73, 0x25, 0xeb, 0xc6, 0x1e, 0x85, 0x57, 0x17, 0x7d, 0x70, 0x5a, 0x0e, 0xc8, 0x80,
    0x15, 0x1c, 0x3a, 0x32, 0xa0, 0x08, 0x99, 0xb8]) := by decide +kernel
/-- M3a: 55 buffered bytes still take one compression. -/
theorem test_rmd320Final_no_rollover :
    lastResponse (exec .rmd320Final (receivedState
    [0x01, 0x08, 0x0f, 0x16, 0x1d, 0x24, 0x2b, 0x32, 0x39, 0x40, 0x47, 0x4e, 0x55, 0x5c, 0x63, 0x6a,
    0x71, 0x78, 0x7f, 0x86, 0x8d, 0x94, 0x9b, 0xa2, 0xa9, 0xb0, 0xb7, 0xbe, 0xc5, 0xcc, 0xd3, 0xda,
    0xe1, 0xe8, 0xef, 0xf6, 0xfd, 0x04, 0x0b, 0x12, 0x19, 0x20, 0x27, 0x2e, 0x35, 0x3c, 0x43, 0x4a,
    0x51, 0x58, 0x5f, 0x66, 0x6d, 0x74, 0x7b])) = some (0x00 ::
    [0xb9, 0xda, 0xd9, 0x3a, 0x55, 0xca, 0xd1, 0xd1, 0xf6, 0xbe, 0x09, 0xe4, 0xe0, 0xcb, 0x91, 0x0d,
    0x47, 0xb2, 0xdd, 0xc5, 0xff, 0x0c, 0x47, 0xb4, 0x14, 0xf0, 0xac, 0x33, 0xdc, 0xd1, 0x37, 0x32,
    0xc3, 0x05, 0xda, 0xf9, 0x1f, 0x6a, 0xae, 0xde]) := by decide +kernel
/-- H5: a key of 64 bytes is not hashed. -/
theorem test_rmd320Hmac_key64 :
    lastResponse (exec (.rmd320Hmac (List.replicate 64 0xaa) [0x61, 0x62, 0x63]) State.reset) = some (0x00 ::
    [0xca, 0xb8, 0x10, 0x17, 0xee, 0xff, 0xd4, 0xa6, 0x82, 0xa6, 0x26, 0xf7, 0x6e, 0xd7, 0x65, 0xc3,
    0x54, 0xa4, 0xbf, 0xf8, 0xa8, 0x12, 0x8d, 0x44, 0xb8, 0x3b, 0x67, 0xfb, 0x04, 0x92, 0x84, 0xef,
    0xa0, 0xec, 0xda, 0xb1, 0x85, 0x49, 0x92, 0x2f]) := by decide +kernel
/-- H6: a key of 65 bytes is hashed. -/
theorem test_rmd320Hmac_key65 :
    lastResponse (exec (.rmd320Hmac (List.replicate 65 0xaa) [0x61, 0x62, 0x63]) State.reset) = some (0x00 ::
    [0x84, 0xe6, 0x6d, 0xa6, 0x3d, 0x94, 0x75, 0xa0, 0xe0, 0x9c, 0x24, 0x00, 0x13, 0xa8, 0x0e, 0xbc,
    0x89, 0x68, 0xab, 0x0b, 0x72, 0x13, 0xf6, 0x67, 0x28, 0x0c, 0x0a, 0x26, 0xbf, 0x35, 0xdb, 0x9d,
    0x72, 0x75, 0x68, 0x58, 0x06, 0x76, 0x9c, 0xe5]) := by decide +kernel
/-- H3: 20 bytes 0x0b and "Hi There", on an instance that has the command. -/
theorem test_rmd160Hmac :
    lastResponse (exec (.rmd160Hmac (List.replicate 20 0x0b) [0x48, 0x69, 0x20, 0x54, 0x68, 0x65, 0x72, 0x65]) hmac160State)
      = some (0x00 ::
    [0x24, 0xcb, 0x4b, 0xd6, 0x7d, 0x20, 0xfc, 0x1a, 0x5d, 0x2e, 0xd7, 0x73, 0x2d, 0xcc, 0x39, 0x37,
    0x7f, 0x0a, 0x56, 0x68]) := by decide +kernel
/-- X6: every output character once, in order. -/
theorem test_hex_all_digits :
    lastResponse (exec (.hex [0x01, 0x23, 0x45, 0x67, 0x89, 0xab, 0xcd, 0xef]) State.reset)
      = some (0x00 :: [0x30, 0x31, 0x32, 0x33, 0x34, 0x35, 0x36, 0x37, 0x38, 0x39, 0x61, 0x62, 0x63, 0x64, 0x65, 0x66]) := by
  decide
/-- X3, X4: the high nibble first. -/
theorem test_hex_nibble_order :
    lastResponse (exec (.hex [0x0a, 0xa0]) State.reset) = some [0x00, 0x30, 0x61, 0x61, 0x30] := by decide
/-- R129: UPDATE announcing 3 bytes and carrying 2, on an UNINIT context, answers 0x02, not 0x01. -/
theorem test_decoding_comes_first :
    lastResponse (step (withEvents [.request [0x11, 0x03, 0x00, 0x00, 0x00, 0x61, 0x62]])) = some [0x02] := by decide
/-- L2: both carries, and the wrap of `len`. -/
theorem test_counters_carry :
    advance320 0xFFFFFFC0 0 64 = (0, 1) ∧ advance320 0xFFFFFFC0 0xFFFFFFFF 64 = (0, 0)
    ∧ advance160 0xFFFFFFFFFFFFFFC0 64 = 0 := by decide
/-- L1: the shift crosses the word boundary. -/
theorem test_length_field :
    bitlen320 0x00000005 1 = [0x28, 0, 0, 0, 0x08, 0, 0, 0]
    ∧ bitlen160 0x1FFFFFFFFFFFFFFF = [0xf8, 0xff, 0xff, 0xff, 0xff, 0xff, 0xff, 0xff] := by decide
/-- T3: COMPRESS160 on five zero words and a zero block; the slot form gives the same. -/
theorem test_compress160_zeros :
    compress160 (Vector.replicate 5 0) zeroBlock = #v[0x6BB9FE69, 0x3D09C7C0, 0x48ED6A0E, 0x7D117C5D, 0xADC8E12D]
    ∧ compress160Slots (Vector.replicate 5 0) zeroBlock
      = #v[0x6BB9FE69, 0x3D09C7C0, 0x48ED6A0E, 0x7D117C5D, 0xADC8E12D] := by decide +kernel
/-- T4: COMPRESS320 on ten zero words and a zero block; the slot form gives the same. -/
theorem test_compress320_zeros :
    compress320 (Vector.replicate 10 0) zeroBlock = #v[0x31605305, 0xA46CBFD9, 0xCB9963D8, 0xCAC0F6C0, 0x5FD17897,
      0xDE0AA4A3, 0x3124090C, 0xCE62A061, 0x10690828, 0x84C1582C]
    ∧ compress320Slots (Vector.replicate 10 0) zeroBlock = #v[0x31605305, 0xA46CBFD9, 0xCB9963D8, 0xCAC0F6C0, 0x5FD17897,
      0xDE0AA4A3, 0x3124090C, 0xCE62A061, 0x10690828, 0x84C1582C] := by decide +kernel

/-! ## Witnesses: the hypotheses of each statement can be met -/

theorem test_hyp_DecodeEncodeRoundTrip :
    (Instr.rmd160Hmac [0xaa] []).wellFormed = true ∧ (Instr.rmd160Hmac [0xaa] []).present ⟨true⟩ = true := by decide

theorem test_hyp_DecodedFrameIsTheEncoding : decode ⟨false⟩ [0x30, 0x00, 0x00, 0x00, 0x00] = .ok (.hex []) := by decide

theorem test_hyp_FrameDecodesExactlyWhenWellFormed : decode ⟨false⟩ [0x10] = .ok .rmd160Init := by decide

/-- A state that is about to take this frame. -/
theorem test_hyp_pending (frame : Bytes) : (withEvents [.request frame]).pending = [.request frame] := rfl

/-- Each of the causes (a) to (e) of R57 at a shortest frame, field by field. -/
theorem test_hyp_malformed_causes (p : Params) :
    FrameMalformed p [] ∧ FrameMalformed p [0x14]
    ∧ FrameMalformed p [0x11, 0x03, 0x00, 0x00]
    ∧ FrameMalformed p [0x23, 0x00, 0x00, 0x00, 0x00, 0x00, 0x00, 0x00]
    ∧ FrameMalformed p [0x21, 0x01, 0x00, 0x00, 0x00]
    ∧ FrameMalformed p [0x23, 0x00, 0x00, 0x00, 0x00, 0x01, 0x00, 0x00, 0x00]
    ∧ FrameMalformed p [0x12, 0x00]
    ∧ FrameMalformed p [0x30, 0x00, 0x00, 0x00, 0x00, 0x00]
    ∧ FrameMalformed p [0x23, 0x00, 0x00, 0x00, 0x00, 0x00, 0x00, 0x00, 0x00, 0x00] :=
  ⟨.inl rfl, .inr ⟨0x14, rfl, .inl (.inl (by decide))⟩, .inr ⟨0x11, rfl, .inr (by decide)⟩, .inr ⟨0x23, rfl, .inr (by decide)⟩,
    .inr ⟨0x21, rfl, .inr (by decide)⟩, .inr ⟨0x23, rfl, .inr (by decide)⟩, .inr ⟨0x12, rfl, .inr (by decide)⟩,
    .inr ⟨0x30, rfl, .inr (by decide)⟩, .inr ⟨0x23, rfl, .inr (by decide)⟩⟩

/-- Frames that have none of the causes: one per format. -/
theorem test_hyp_wellformed_frames (p : Params) :
    ¬ FrameMalformed p [0x10] ∧ ¬ FrameMalformed p [0x30, 0x00, 0x00, 0x00, 0x00]
    ∧ ¬ FrameMalformed p [0x23, 0x00, 0x00, 0x00, 0x00, 0x00, 0x00, 0x00, 0x00] := by
  have h10 : ¬ ReservedFor p 0x10 := by
    rintro (h | h)
    · revert h; decide
    · exact absurd h.1 (by decide)
  have h30 : ¬ ReservedFor p 0x30 := by
    rintro (h | h)
    · revert h; decide
    · exact absurd h.1 (by decide)
  have h23 : ¬ ReservedFor p 0x23 := by
    rintro (h | h)
    · revert h; decide
    · exact absurd h.1 (by decide)
  refine ⟨?_, ?_, ?_⟩
  · rintro (h | ⟨op, h, h' | h'⟩)
    · cases h
    · cases h; exact h10 h'
    · cases h; revert h'; decide
  · rintro (h | ⟨op, h, h' | h'⟩)
    · cases h
    · cases h; exact h30 h'
    · cases h; revert h'; decide
  · rintro (h | ⟨op, h, h' | h'⟩)
    · cases h
    · cases h; exact h23 h'
    · cases h; revert h'; decide

/-- The ends of the reserved ranges, their defined neighbours, and 0x13 with and without the parameter. -/
theorem test_hyp_ReservedOpcodes :
    (∀ op ∈ ([0x00, 0x0F, 0x14, 0x1F, 0x24, 0x2F, 0x31, 0xFF] : List Byte), ReservedFor ⟨true⟩ op)
    ∧ (∀ op ∈ ([0x10, 0x13, 0x20, 0x23, 0x30] : List Byte), ¬ ReservedFor ⟨true⟩ op)
    ∧ ReservedFor ⟨false⟩ 0x13 := by decide

theorem test_hyp_StepRunsTheDecodedCommand :
    (withEvents [.request [0x10]]).pending = .request [0x10] :: []
    ∧ decode (withEvents [.request [0x10]]).params [0x10] = .ok .rmd160Init := by decide

theorem test_hyp_ResetEvent : (withEvents [.reset]).pending = .reset :: [] := rfl

theorem test_hyp_IdleBlock : State.reset.pending = [] := rfl

/-- A response with status OK, one with InvalidState, and a malformed frame. -/
theorem test_hyp_Responses :
    (∃ t, exec (.hex [0x00]) State.reset = .next t ∧ t.responses = [[0x00, 0x30, 0x30]])
    ∧ (∃ t, exec .rmd160Final State.reset = .next t ∧ t.responses = [[0x01]])
    ∧ decode (withEvents [.request []]).params [] = .error .emptyFrame :=
  ⟨⟨_, rfl, by decide⟩, ⟨_, rfl, by decide⟩, rfl⟩

/-- Both contexts ACTIVE, with an empty buffer and with one byte short of full; and an instance that has RMD160.HMAC. -/
theorem test_hyp_ActiveContexts :
    (initState.c160.phase = .active ∧ initState.c160.fill.toNat ≤ 63 ∧ initState.c160.fill = 0)
    ∧ (initState.c320.phase = .active ∧ initState.c320.fill.toNat ≤ 63 ∧ initState.c320.fill = 0)
    ∧ ((partlyState 63).c160.phase = .active ∧ (partlyState 63).c160.fill.toNat ≤ 63 ∧ (partlyState 63).c160.fill = 63)
    ∧ ((partlyState 63).c320.phase = .active ∧ (partlyState 63).c320.fill.toNat ≤ 63 ∧ (partlyState 63).c320.fill = 63)
    ∧ hmac160State.params.hmac160Present = true := by decide

/-- UPDATE answers a next state there: the operands at which the clauses of the buffer statements meet (no block completed,
a block completed with nothing left, a block completed with a tail). -/
theorem test_hyp_UpdateWrites :
    ∀ data ∈ [[], [0x01], [0x01, 0x02]],
      (∃ t, exec (.rmd160Update data) (partlyState 63) = .next t) ∧ ∃ t, exec (.rmd320Update data) (partlyState 63) = .next t :=
  fun _ _ => ⟨⟨_, rfl⟩, ⟨_, rfl⟩⟩

/-- The values of UpdateWritesTheseBufferBytes and BufferIsEmptyOrPartialBetweenCommands at `fill` = 63: a top-off that just
completes the block, and one with a tail of one byte. -/
theorem test_update_at_boundary :
    (contextsAfter (exec (.rmd160Update [0x01]) (partlyState 63))).map
      (fun c => (c.1.fill, c.1.buf.toList[0]?, c.1.buf.toList[63]?)) = some (0, some 0x61, some 0x01)
    ∧ (contextsAfter (exec (.rmd160Update [0x01, 0x02]) (partlyState 63))).map
      (fun c => (c.1.fill, c.1.buf.toList[0]?, c.1.buf.toList[1]?, c.1.buf.toList[63]?))
        = some (1, some 0x02, some 0x61, some 0x01) := by decide

/-- INIT answers a next state, for CounterAndFillCountTheReceivedBytes. -/
theorem test_hyp_InitSteps (s : State) :
    (∃ t, exec .rmd160Init s = .next t) ∧ ∃ t, exec .rmd320Init s = .next t := ⟨⟨_, rfl⟩, ⟨_, rfl⟩⟩

/-- FINAL at the fill counts where its cases meet: 0, 55, 56 and 63. -/
theorem test_hyp_FinalCases :
    ∀ f ∈ ([0, 55, 56, 63] : List (BitVec 7)),
      (partlyState f).c160.phase = .active ∧ (partlyState f).c160.fill.toNat ≤ 63
      ∧ (partlyState f).c320.phase = .active ∧ (partlyState f).c320.fill.toNat ≤ 63 := by decide

/-- Contexts that are not ACTIVE: UNINIT and SPENT. -/
theorem test_hyp_InactiveContexts :
    (State.reset.c160.phase ≠ .active ∧ State.reset.c320.phase ≠ .active)
    ∧ (unspecified160 0 .spent).phase ≠ .active ∧ (unspecified320 0 .spent).phase ≠ .active := by decide

/-- Keys at the strict test: 64 bytes are used as they are, 65 are hashed; both engines. -/
theorem test_hyp_ReducedKeys :
    (List.replicate 64 (0xaa : Byte)
      = if 64 < (List.replicate 64 (0xaa : Byte)).length then hash320 (List.replicate 64 0xaa) else List.replicate 64 0xaa)
    ∧ (hash320 (List.replicate 65 0xaa)
      = if 64 < (List.replicate 65 (0xaa : Byte)).length then hash320 (List.replicate 65 0xaa) else List.replicate 65 0xaa)
    ∧ (hash160 (List.replicate 65 0xaa)
      = if 64 < (List.replicate 65 (0xaa : Byte)).length then hash160 (List.replicate 65 0xaa) else List.replicate 65 0xaa) :=
  ⟨by rw [if_neg (by decide)], by rw [if_pos (by decide)], by rw [if_pos (by decide)]⟩

/-- Operands a length word can tell, for the frames of both HMAC commands and of HEX. -/
theorem test_hyp_OperandLengths : ([] : Bytes).length < 2 ^ 32 ∧ ([0xaa] : Bytes).length < 2 ^ 32 := by decide

theorem test_hyp_EquivalentKeys :
    ([0x6b] : Bytes).length + 63 ≤ 64 ∧ 64 < (List.replicate 65 (0xaa : Byte)).length := by decide

/-- A step that answers a next state, for the statements about one step: idle, reset, a command, a malformed frame. -/
theorem test_hyp_Steps :
    (∃ t, step State.reset = .next t) ∧ (∃ t, step (withEvents [.reset]) = .next t)
    ∧ (∃ t, step (withEvents [.request [0x10]]) = .next t) ∧ (∃ t, step (withEvents [.request []]) = .next t) :=
  ⟨⟨_, rfl⟩, ⟨_, rfl⟩, ⟨_, rfl⟩, ⟨_, rfl⟩⟩

/-- HEX at the nibbles 9 and 10, where its two clauses meet, and the hypotheses of its inverse. -/
theorem test_hyp_Hex :
    ([0x9a] : Bytes)[0]? = some 0x9a ∧ (0x39 : Byte) ∈ hexChars [0x9a] ∧ (0x61 : Byte) ∈ hexChars [0x9a]
    ∧ (hexChars [0x9a])[2 * 0]? = some 0x39 ∧ (hexChars [0x9a])[2 * 0 + 1]? = some 0x61 := by decide

theorem test_hyp_HexInjective : hexChars [0x9a, 0x00] = hexChars ([0x9a] ++ [0x00]) := rfl

/-- The ends of the ranges of the statements over positions: bit 0 and 31, rotation by 1 and 31, rows and steps of the
tables, indices of the combination and of a digest, the last word of a string, k = 64 with and without a carry. -/
theorem test_hyp_Ranges :
    (0 < 32 ∧ 31 < 32) ∧ (1 ≤ 1 ∧ 1 ≤ 31) ∧ (1 ≤ 31 ∧ 31 ≤ 31) ∧ (4 < 5 ∧ 15 < 16 ∧ 79 < 80)
    ∧ (0 < 5 ∧ 9 < 10 ∧ 3 < 4 ∧ 7 < 8) ∧ 0 + 3 < ([0x61, 0x62, 0x63, 0x80] : Bytes).length
    ∧ 64 ≤ 64 ∧ 2 ^ 32 ≤ (0xFFFFFFC0 : Word).toNat + 64 ∧ ¬ 2 ^ 32 ≤ (0xFFFFFFBF : Word).toNat + 64 := by decide

/-- The invariant holds of a state in mid-message. -/
theorem test_hyp_Invariant : (partlyState 63).Inv ∧ initState.Inv := by decide

/-- A command on an ACTIVE context and one on a context that is not, for the frame and the lifecycle. -/
theorem test_hyp_Commands :
    (∃ t, exec .rmd160Final initState = .next t ∧ t.c160.phase = .spent)
    ∧ (∃ t, exec .rmd160Final State.reset = .next t ∧ t.c160.phase = .uninit) := ⟨⟨_, rfl, rfl⟩, ⟨_, rfl, rfl⟩⟩

/-- OnlyResetReturnsToUninit: a step that is no reset, to a state with both phases UNINIT. -/
theorem test_hyp_OnlyReset :
    (∀ es, (withEvents [.request [0x12]]).pending ≠ .reset :: es)
    ∧ ∃ t, step (withEvents [.request [0x12]]) = .next t ∧ t.c160.phase = .uninit ∧ t.c320.phase = .uninit := by
  refine ⟨?_, ⟨_, rfl, rfl, rfl⟩⟩
  intro es h
  cases h

/-- FaultsLeaveEveryRegisterUnchanged: FINAL before INIT answers status 0x01, a reserved opcode 0x02. -/
theorem test_hyp_Faults :
    (∃ t, step (withEvents [.request [0x12]]) = .next t ∧ t.responses = State.reset.responses ++ [0x01 :: []])
    ∧ (∃ t, step (withEvents [.request [0x14]]) = .next t ∧ t.responses = State.reset.responses ++ [0x02 :: []])
    ∧ (0x01 : Byte) ≠ 0x00 ∧ (0x02 : Byte) ≠ 0x00 :=
  ⟨⟨_, rfl, rfl⟩, ⟨_, rfl, rfl⟩, by decide, by decide⟩

/-- RequestAfterAFaultRunsAsIfItWereFirst: a fault, then INIT. -/
theorem test_hyp_RequestAfterAFault :
    (withEvents [.request [0x14], .request [0x10]]).pending = .request [0x14] :: .request [0x10] :: []
    ∧ ∃ t u, step (withEvents [.request [0x14], .request [0x10]]) = .next t
      ∧ t.responses = State.reset.responses ++ [[0x02]] ∧ step t = .next u := ⟨rfl, _, _, rfl, rfl, rfl⟩

/-- UnspecifiedRegistersAreNeverObserved: two different states the host cannot tell apart, which differ in a stale byte of
an ACTIVE context and in every register of a context that is not. -/
theorem test_hyp_Similar :
    ∃ s s' t : State, s ≠ s' ∧ s.Inv ∧ s'.Inv ∧ s.Similar s' ∧ step s = .next t := by
  refine ⟨{ initState with c320 := State.reset.c320 },
    { initState with c160 := { init160 with buf := Vector.replicate 64 0x61 },
                     c320 := { State.reset.c320 with h := iv320, fill := 5, lenLo := 7 } }, _,
    by decide, by decide, by decide, ⟨⟨rfl, fun _ => ⟨rfl, rfl, rfl, rfl⟩⟩, ⟨rfl, fun h => ?_⟩, rfl, rfl, rfl⟩, rfl⟩
  cases h

/-- CommandsOfTheTwoEnginesCommute: a command of each engine. -/
theorem test_hyp_TwoEngines :
    (Instr.rmd160Final = .rmd160Init ∨ (∃ data, Instr.rmd160Final = .rmd160Update data) ∨ Instr.rmd160Final = .rmd160Final)
    ∧ (Instr.rmd320Update [] = .rmd320Init ∨ (∃ data, Instr.rmd320Update [] = .rmd320Update data)
      ∨ Instr.rmd320Update [] = .rmd320Final) := ⟨.inr (.inr rfl), .inr (.inl ⟨[], rfl⟩)⟩

theorem test_hyp_Platform : (platformReset 2).instances[1]? = some State.reset ∧ (0 : Nat) ≠ 1 := by decide

end Sys2Proof.Tests
end

section
/-! Rotation (00_scope.md R11): `rol` is the library's `BitVec.rotateLeft`, and a property of every entry of a table holds of
`tableAt`. -/

namespace Sys2Proof.Machine

/-- Within R11's range the modelled rotation is the library's, whose lemmas then apply. -/
theorem rol_eq_rotateLeft (a : Word) {n : Nat} (hn : n ≤ 31) : rol a n = a.rotateLeft n := by
  rw [BitVec.rotateLeft_def, Nat.mod_eq_of_lt (by omega), rol]

theorem toNat_rol (a : Word) (n : Nat) :
    (rol a n).toNat = ((a.toNat * 2 ^ n) % 2 ^ 32) ||| (a.toNat / 2 ^ (32 - n)) := by
  simp only [rol, BitVec.toNat_or, BitVec.toNat_shiftLeft, BitVec.toNat_ushiftRight, Nat.shiftLeft_eq,
    Nat.shiftRight_eq_div_pow]

/-- Bit `i` of the result comes from `n` places to its right, going round at the end of the word. -/
theorem getLsbD_rol (a : Word) {n i : Nat} (hn : n ≤ 31) (hi : i < 32) :
    (rol a n).getLsbD i = a.getLsbD ((i + 32 - n) % 32) := by
  rw [rol_eq_rotateLeft a hn, BitVec.getLsbD_rotateLeft_of_le (by omega)]
  by_cases hwrap : i < n
  · have hsource : (i + 32 - n) % 32 = 32 - n + i := by omega
    simp [hwrap, hsource]
  · have hsource : (i + 32 - n) % 32 = i - n := by omega
    simp [hwrap, hi, hsource]

/-- `tableAt` reads an entry of its table, so what holds of every entry holds of what it reads. -/
theorem tableAt_of_forall_entry {α : Type} {P : α → Prop} {table : Vector (Vector α 16) 5}
    (h : ∀ (q : Fin 5) (t : Fin 16), P table[q][t]) (j : Nat) : P (tableAt table j) :=
  h ⟨(j / 16) % 5, Nat.mod_lt _ (by decide)⟩ ⟨j % 16, Nat.mod_lt _ (by decide)⟩

theorem rotLeft_bounds (j : Nat) : 5 ≤ tableAt rotLeft j ∧ tableAt rotLeft j ≤ 15 :=
  tableAt_of_forall_entry (P := fun r => 5 ≤ r ∧ r ≤ 15) (by decide) j

theorem rotRight_bounds (j : Nat) : 5 ≤ tableAt rotRight j ∧ tableAt rotRight j ≤ 15 :=
  tableAt_of_forall_entry (P := fun r => 5 ≤ r ∧ r ≤ 15) (by decide) j

/-- Settles O31: the shifts of `rol` read as numbers, the bit move from the library's `rotateLeft`, and the bounds of every
entry of the two rotation tables. -/
theorem rotationIsCircular : Obligations.RotationIsCircular := by
  unfold Obligations.RotationIsCircular
  refine ⟨fun a n _ hn => ⟨toNat_rol a n, fun i hi => getLsbD_rol a hn hi⟩, fun j _ => ?_, by decide, by decide⟩
  obtain ⟨hleft_ge, hleft_le⟩ := rotLeft_bounds j
  exact ⟨hleft_ge, hleft_le, rotRight_bounds j⟩

end Sys2Proof.Machine
end

section
/-! Byte order (20_memory.md R33 to R35): what a word load is as a number, and what each byte of a store is as a bit range. -/

namespace Sys2Proof.Machine

/-- Four bytes weigh less than 2^32 in all, so the sum of R33 does not wrap in the word that holds it. -/
theorem toNat_le32 (s : Bytes) (i : Nat) :
    (le32 s i).toNat = (s.getD i 0).toNat + 2 ^ 8 * (s.getD (i + 1) 0).toNat
      + 2 ^ 16 * (s.getD (i + 2) 0).toNat + 2 ^ 24 * (s.getD (i + 3) 0).toNat := by
  have h0 := (s.getD i 0).isLt
  have h1 := (s.getD (i + 1) 0).isLt
  have h2 := (s.getD (i + 2) 0).isLt
  have h3 := (s.getD (i + 3) 0).isLt
  rw [le32, BitVec.toNat_ofNat, Nat.mod_eq_of_lt (by omega)]

theorem st32le_eq_extractLsb (v : Word) :
    st32le v = [v.extractLsb 7 0, v.extractLsb 15 8, v.extractLsb 23 16, v.extractLsb 31 24] := rfl

theorem le32_st32le (v : Word) : le32 (st32le v) 0 = v := by
  have hload := le32_st32le_append v []
  rwa [List.append_nil] at hload

theorem getElem?_st64le (v : Dword) {k : Nat} (hk : k < 8) : (st64le v)[k]? = some (v.extractLsb' (8 * k) 8) := by
  rw [st64le, List.getElem?_map, List.getElem?_range hk, Option.map_some]

/-- Settles O38: the load as a number (`toNat_le32`), the bytes of both stores, and the word load that undoes the word
store; the two examples of the rules are evaluated. -/
theorem loadsAndStoresAreLittleEndian : Obligations.LoadsAndStoresAreLittleEndian := by
  unfold Obligations.LoadsAndStoresAreLittleEndian
  exact ⟨fun s i _ => toNat_le32 s i, fun v => ⟨st32le_eq_extractLsb v, le32_st32le v⟩,
    fun v => ⟨st64le_split v, fun k hk => getElem?_st64le v hk⟩, by decide, by decide⟩

end Sys2Proof.Machine
end

section
/-! Request frames (30_encoding.md R49 to R57): what each of the three formats accepts, how the decoder picks the format from
the opcode, and R49's test in both directions. -/

namespace Sys2Proof

open Sys2Proof.Machine

/-- R56's four ranges are all the byte values but the nine opcodes of R55. -/
theorem reservedOpcode_iff (op : Byte) :
    ReservedOpcode op ↔ op ∉ ([0x10, 0x11, 0x12, 0x13, 0x20, 0x21, 0x22, 0x23, 0x30] : List Byte) := by
  revert op; decide

theorem not_reservedFor_of_ne {op : Byte} (p : Params) (hdefined : ¬ ReservedOpcode op) (hne : op ≠ 0x13) :
    ¬ ReservedFor p op :=
  fun h => h.elim hdefined fun h13 => hne h13.1

/-- How the decoder treats an opcode, whatever follows it: it rejects the opcode by name, or it reads the operand fields of the
opcode's format and builds the command that this opcode encodes. -/
inductive OpcodeFormat (p : Params) (op : Byte) : Prop where
  /-- The opcode is reserved (R56, R58). -/
  | reserved (hreserved : ReservedFor p op)
      (hdecode : ∀ rest, decode p (op :: rest) = .error (.reservedOpcode op))
  /-- Format F0. -/
  | f0 (i : Instr) (hdefined : ¬ ReservedFor p op) (hformat : formatFields op = 0)
      (hencode : encode i = op :: [].flatMap encodeField)
      (hdecode : ∀ rest, decode p (op :: rest) = decodeF0 i rest)
  /-- Format F1. -/
  | f1 (mk : Bytes → Instr) (hdefined : ¬ ReservedFor p op) (hformat : formatFields op = 1)
      (hencode : ∀ data, encode (mk data) = op :: [data].flatMap encodeField)
      (hdecode : ∀ rest, decode p (op :: rest) = decodeF1 mk rest)
  /-- Format F2. -/
  | f2 (mk : Bytes → Bytes → Instr) (hdefined : ¬ ReservedFor p op) (hformat : formatFields op = 2)
      (hencode : ∀ key msg, encode (mk key msg) = op :: [key, msg].flatMap encodeField)
      (hdecode : ∀ rest, decode p (op :: rest) = decodeF2 mk rest)

/-- Every byte value is reserved or one of the nine opcodes, each with its format (R55, R56). -/
theorem opcodeFormat (p : Params) (op : Byte) : OpcodeFormat p op := by
  by_cases hres : ReservedOpcode op
  · have hne := (reservedOpcode_iff op).mp hres
    simp only [List.mem_cons, List.not_mem_nil, or_false, not_or] at hne
    exact .reserved (.inl hres) fun rest => by simp only [decode, hne, if_false]
  have hmem := not_not.mp (mt (reservedOpcode_iff op).mpr hres)
  simp only [List.mem_cons, List.not_mem_nil, or_false] at hmem
  rcases hmem with rfl | rfl | rfl | rfl | rfl | rfl | rfl | rfl | rfl
  · exact .f0 .rmd160Init (not_reservedFor_of_ne p hres (by decide)) rfl rfl fun _ => rfl
  · exact .f1 .rmd160Update (not_reservedFor_of_ne p hres (by decide)) rfl (fun _ => rfl) fun _ => rfl
  · exact .f0 .rmd160Final (not_reservedFor_of_ne p hres (by decide)) rfl rfl fun _ => rfl
  · cases hp : p.hmac160Present with
    | false => exact .reserved (.inr ⟨rfl, hp⟩) fun rest => by simp [decode, hp]
    | true =>
      exact .f2 .rmd160Hmac (by simp [ReservedFor, hp]) rfl (fun _ _ => rfl) fun rest => by simp [decode, hp]
  · exact .f0 .rmd320Init (not_reservedFor_of_ne p hres (by decide)) rfl rfl fun _ => rfl
  · exact .f1 .rmd320Update (not_reservedFor_of_ne p hres (by decide)) rfl (fun _ => rfl) fun _ => rfl
  · exact .f0 .rmd320Final (not_reservedFor_of_ne p hres (by decide)) rfl rfl fun _ => rfl
  · exact .f2 .rmd320Hmac (not_reservedFor_of_ne p hres (by decide)) rfl (fun _ _ => rfl) fun _ => rfl
  · exact .f1 .hex (not_reservedFor_of_ne p hres (by decide)) rfl (fun _ => rfl) fun _ => rfl

/-! One field at the front of a string -/

theorem takeField_ok_iff {bs data after : Bytes} :
    takeField bs = .ok (data, after) ↔ bs = encodeField data ++ after ∧ data.length < 2 ^ 32 :=
  ⟨takeField_ok, fun ⟨hbs, hfits⟩ => hbs ▸ takeField_encodeField data after hfits⟩

/-- The length word at the front of a taken field announces the data that is taken. -/
theorem takeField_ok_length {bs data after : Bytes} (h : takeField bs = .ok (data, after)) :
    (le32 bs 0).toNat = data.length := by
  obtain ⟨rfl, hfits⟩ := takeField_ok h
  rw [encodeField, List.append_assoc, le32_st32le_append, length_word_toNat data hfits]

theorem takeField_ok_after {bs data after : Bytes} (h : takeField bs = .ok (data, after)) :
    after = bs.drop (4 + (le32 bs 0).toNat) := by
  rw [takeField_ok_length h, (takeField_ok h).1, List.drop_left' (encodeField_length data)]

/-! What each format accepts: F2 is a field and then F1, F1 is a field and then F0. -/

theorem decodeF0_ok_iff {i j : Instr} {rest : Bytes} : decodeF0 i rest = .ok j ↔ rest = [] ∧ i = j := by
  by_cases hrest : rest = [] <;> simp [decodeF0, hrest]

theorem decodeF1_ok_iff {mk : Bytes → Instr} {rest : Bytes} {i : Instr} :
    decodeF1 mk rest = .ok i ↔
      ∃ data after, takeField rest = .ok (data, after) ∧ decodeF0 (mk data) after = .ok i := by
  cases hfield : takeField rest with
  | error e => simp [decodeF1, hfield]
  | ok field => simp [decodeF1, decodeF0, hfield, Prod.ext_iff]

theorem decodeF2_ok_iff {mk : Bytes → Bytes → Instr} {rest : Bytes} {i : Instr} :
    decodeF2 mk rest = .ok i ↔
      ∃ key after, takeField rest = .ok (key, after) ∧ decodeF1 (mk key) after = .ok i := by
  cases hfield : takeField rest with
  | error e => simp [decodeF2, hfield]
  | ok field => simp [decodeF2, decodeF1, hfield, Prod.ext_iff]

/-- Format F0 accepts nothing after the opcode. -/
theorem decodeF0_isOk_iff (i : Instr) (rest : Bytes) : (∃ j, decodeF0 i rest = .ok j) ↔ rest.length = 0 := by
  simp [decodeF0_ok_iff]

/-- Format F1 accepts a string exactly as long as its length word announces. -/
theorem decodeF1_isOk_iff (mk : Bytes → Instr) (rest : Bytes) :
    (∃ i, decodeF1 mk rest = .ok i) ↔ rest.length = 4 + (le32 rest 0).toNat := by
  simp only [decodeF1_ok_iff, decodeF0_ok_iff]
  constructor
  · rintro ⟨i, data, after, hfield, rfl, hi⟩
    rw [takeField_ok_length hfield, (takeField_ok hfield).1, List.append_nil, encodeField_length]
  · intro hlength
    obtain ⟨data, after, hfield⟩ := (takeField_isOk_iff rest).mpr (by omega)
    refine ⟨mk data, data, after, hfield, ?_, rfl⟩
    rw [takeField_ok_after hfield, ← hlength, List.drop_length]

/-- Format F2 accepts a string exactly as long as its two length words announce; the second stands after the first field. -/
theorem decodeF2_isOk_iff (mk : Bytes → Bytes → Instr) (rest : Bytes) :
    (∃ i, decodeF2 mk rest = .ok i) ↔
      rest.length = 4 + (le32 rest 0).toNat + (4 + (le32 rest (4 + (le32 rest 0).toNat)).toNat) := by
  have hmsg : ∀ key after, takeField rest = .ok (key, after) →
      ((∃ i, decodeF1 (mk key) after = .ok i) ↔ rest.length - (4 + (le32 rest 0).toNat)
        = 4 + (le32 rest (4 + (le32 rest 0).toNat)).toNat) := by
    intro key after hkey
    rw [decodeF1_isOk_iff, takeField_ok_after hkey, le32_drop, List.length_drop, Nat.add_zero]
  simp only [decodeF2_ok_iff]
  constructor
  · rintro ⟨i, key, after, hkey, hi⟩
    have hrest := (hmsg key after hkey).mp ⟨i, hi⟩
    omega
  · intro hlength
    obtain ⟨key, after, hkey⟩ := (takeField_isOk_iff rest).mpr (by omega)
    obtain ⟨i, hi⟩ := (hmsg key after hkey).mpr (by omega)
    exact ⟨i, key, after, hkey, hi⟩

/-! R49's test, from the string alone -/

theorem le32_cons_succ (b : Byte) (bs : Bytes) (k : Nat) : le32 (b :: bs) (k + 1) = le32 bs k := by
  rw [Nat.add_comm, ← le32_drop, List.drop_one, List.tail_cons]

theorem frameWellFormed_cons (p : Params) (op : Byte) (rest : Bytes) :
    FrameWellFormed p (op :: rest) ↔ ¬ ReservedFor p op ∧
      ((formatFields op = 0 ∧ rest.length = 0)
        ∨ (formatFields op = 1 ∧ rest.length = 4 + (le32 rest 0).toNat)
        ∨ (formatFields op = 2 ∧ rest.length
            = 4 + (le32 rest 0).toNat + (4 + (le32 rest (4 + (le32 rest 0).toNat)).toNat))) := by
  have hfirst : firstLength (op :: rest) = (le32 rest 0).toNat := by rw [firstLength, le32_cons_succ]
  have hsecond : secondLength (op :: rest) = (le32 rest (4 + (le32 rest 0).toNat)).toNat := by
    rw [secondLength, hfirst, Nat.add_right_comm 4 1, le32_cons_succ]
  simp only [FrameWellFormed, List.head?_cons, Option.some.injEq, exists_eq_left', List.length_cons, hfirst, hsecond]
  refine and_congr_right fun _ => ?_
  omega

theorem not_frameWellFormed_nil (p : Params) : ¬ FrameWellFormed p [] := by simp [FrameWellFormed]

/-- The decoder accepts exactly what R49 calls a well-formed frame. -/
theorem decode_isOk_iff_frameWellFormed (p : Params) (frame : Bytes) :
    (∃ i, decode p frame = .ok i) ↔ FrameWellFormed p frame := by
  cases frame with
  | nil => simp [decode, not_frameWellFormed_nil]
  | cons op rest =>
    rw [frameWellFormed_cons]
    cases opcodeFormat p op with
    | reserved hreserved hdecode => simp [hdecode, hreserved]
    | f0 i hdefined hformat _ hdecode => simp only [hdecode, decodeF0_isOk_iff]; simp [hdefined, hformat]
    | f1 mk hdefined hformat _ hdecode => simp only [hdecode, decodeF1_isOk_iff]; simp [hdefined, hformat]
    | f2 mk hdefined hformat _ hdecode => simp only [hdecode, decodeF2_isOk_iff]; simp [hdefined, hformat]

theorem formatFields_le_two (op : Byte) : formatFields op ≤ 2 := by
  unfold formatFields
  split
  · decide
  · split <;> decide

/-- The causes (a) to (e) of R57 are together the failure of R49's test: at every length a string either fits its format or
ends too early or too late. -/
theorem frameMalformed_iff_not_frameWellFormed (p : Params) (frame : Bytes) :
    FrameMalformed p frame ↔ ¬ FrameWellFormed p frame := by
  cases frame with
  | nil => simp [FrameMalformed, not_frameWellFormed_nil]
  | cons op rest =>
    have hformat := formatFields_le_two op
    simp only [FrameMalformed, FrameWellFormed, List.head?_cons, Option.some.injEq, exists_eq_left', reduceCtorEq,
      List.length_cons, false_or, not_and]
    by_cases hreserved : ReservedFor p op
    · simp [hreserved]
    · simp only [hreserved, not_false_eq_true, true_implies, false_or]
      omega

/-- No bit of a frame is ignored: what decodes is the encoding of the command it decodes to. -/
theorem encode_of_decode_ok {p : Params} {frame : Bytes} {i : Instr} (h : decode p frame = .ok i) : encode i = frame := by
  cases frame with
  | nil => cases h
  | cons op rest =>
    cases opcodeFormat p op with
    | reserved _ hdecode => rw [hdecode] at h; cases h
    | f0 j _ _ hencode hdecode =>
      rw [hdecode, decodeF0_ok_iff] at h
      obtain ⟨rfl, rfl⟩ := h
      exact hencode
    | f1 mk _ _ hencode hdecode =>
      simp only [hdecode, decodeF1_ok_iff, decodeF0_ok_iff, takeField_ok_iff] at h
      obtain ⟨data, after, ⟨rfl, _⟩, rfl, rfl⟩ := h
      exact hencode data
    | f2 mk _ _ hencode hdecode =>
      simp only [hdecode, decodeF2_ok_iff, decodeF1_ok_iff, decodeF0_ok_iff, takeField_ok_iff] at h
      obtain ⟨key, _, ⟨rfl, _⟩, msg, after, ⟨rfl, _⟩, rfl, rfl⟩ := h
      exact hencode key msg

theorem operands_length (i : Instr) : i.operands.length = formatFields i.opcode := by
  cases i <;> rfl

/-- `|frame| = 1 + Σ (4 + n_i)` for every command: the laws of family FrameLength, gathered. -/
theorem encode_length (i : Instr) : (encode i).length = 1 + (i.operands.map fun d => 4 + d.length).sum := by
  cases i with
  | rmd160Init => exact Laws.FrameLength.rmd160Init
  | rmd160Update data => exact Laws.FrameLength.rmd160Update data
  | rmd160Final => exact Laws.FrameLength.rmd160Final
  | rmd160Hmac key msg => exact Laws.FrameLength.rmd160Hmac key msg
  | rmd320Init => exact Laws.FrameLength.rmd320Init
  | rmd320Update data => exact Laws.FrameLength.rmd320Update data
  | rmd320Final => exact Laws.FrameLength.rmd320Final
  | rmd320Hmac key msg => exact Laws.FrameLength.rmd320Hmac key msg
  | hex data => exact Laws.FrameLength.hex data

/-- Settles O4: the decoder accepts exactly R49's frames, the causes of R57 are the rest, and a frame that decodes is the
encoding of its command. -/
theorem frameDecodesExactlyWhenWellFormed : Obligations.FrameDecodesExactlyWhenWellFormed := by
  unfold Obligations.FrameDecodesExactlyWhenWellFormed
  intro p frame
  refine ⟨decode_isOk_iff_frameWellFormed p frame, ?_, fun i hdecode => ?_⟩
  · rw [frameMalformed_iff_not_frameWellFormed]
    exact Classical.em _
  · obtain rfl := encode_of_decode_ok hdecode
    exact ⟨operands_length i, rfl, encode_length i⟩

end Sys2Proof
end

section
/-! What a request is answered (30_encoding.md R53, R54, 60_exceptions.md R126): the response of each command and of each
malformed frame. -/

namespace Sys2Proof.Machine

/-- The payload length of a command that completes (R53's table). -/
def payloadLength : Instr → Nat
  | .rmd160Init => 0
  | .rmd160Update _ => 0
  | .rmd160Final => 20
  | .rmd160Hmac _ _ => 20
  | .rmd320Init => 0
  | .rmd320Update _ => 0
  | .rmd320Final => 40
  | .rmd320Hmac _ _ => 40
  | .hex data => 2 * data.length

/-- The response that command `i`, taken in `s`, leaves in `t`: one status byte of R54, with the command's payload when it is
OK; `ContractViolation` only where the command does not exist. -/
inductive Responds (i : Instr) (s t : State) : Prop where
  /-- Status 0x00. -/
  | ok (payload : Bytes) (hlength : payload.length = payloadLength i)
      (hresponses : t.responses = s.responses ++ [0x00 :: payload])
  /-- Status 0x01. -/
  | invalidState (hresponses : t.responses = s.responses ++ [[0x01]])
  /-- Status 0x02. -/
  | contractViolation (habsent : i.present s.params = false) (hresponses : t.responses = s.responses ++ [[0x02]])

/-- A gated command responds as its effect does, or with `InvalidState`. -/
theorem whenActive_responds {i : Instr} {p : Phase} {s done t : State} (h : whenActive p s done = .next t)
    (hdone : Responds i s done) : Responds i s t := by
  obtain ⟨_, rfl⟩ | ⟨_, rfl⟩ := whenActive_cases h
  · exact hdone
  · exact .invalidState rfl

theorem digest160_length (c : Context160) : (digest160 c).length = 20 := by simp [digest160]

theorem digest320_length (c : Context320) : (digest320 c).length = 40 := by simp [digest320]

theorem hmacTag_length {H : Bytes → Bytes} {n : Nat} (hH : ∀ m, (H m).length = n) (key msg : Bytes) :
    (hmacTag H key msg).length = n := hH _

theorem hexChars_length (data : Bytes) : (hexChars data).length = 2 * data.length := by
  simp [hexChars, List.length_flatMap]; omega

theorem exec_answers (i : Instr) (s : State) : ∃ t, exec i s = .next t := by
  cases i <;> exact ⟨_, rfl⟩

theorem exec_responds {i : Instr} {s t : State} (h : exec i s = .next t) : Responds i s t := by
  cases i with
  | rmd160Init => cases h; exact .ok [] rfl rfl
  | rmd160Update data => exact whenActive_responds h (.ok [] rfl rfl)
  | rmd160Final => exact whenActive_responds h (.ok _ (digest160_length s.c160) rfl)
  | rmd160Hmac key msg =>
    cases hp : s.params.hmac160Present with
    | true =>
      simp only [exec, execRmd160Hmac, hp, if_true] at h
      cases h; exact .ok _ (hmacTag_length hash160_length key msg) rfl
    | false =>
      simp only [exec, execRmd160Hmac, hp] at h
      cases h; exact .contractViolation hp rfl
  | rmd320Init => cases h; exact .ok [] rfl rfl
  | rmd320Update data => exact whenActive_responds h (.ok [] rfl rfl)
  | rmd320Final => exact whenActive_responds h (.ok _ (digest320_length s.c320) rfl)
  | rmd320Hmac key msg => cases h; exact .ok _ (hmacTag_length hash320_length key msg) rfl
  | hex data => cases h; exact .ok _ (hexChars_length data) rfl

/-- Settles O11: the three codes, the response of every command (`exec_responds`), and the single byte of a malformed
frame. -/
theorem responsesHaveTheirCommandsLength : Obligations.ResponsesHaveTheirCommandsLength := by
  unfold Obligations.ResponsesHaveTheirCommandsLength
  refine ⟨⟨rfl, rfl, rfl⟩, fun i s t hexec => ?_, fun s frame es e hpending hdecode =>
    ⟨_, step_malformed s frame es e hpending hdecode, rfl⟩⟩
  cases exec_responds hexec with
  | ok payload hlength hresponses =>
    refine ⟨0x00, payload, hresponses, .inl rfl, fun hne => absurd rfl hne, fun _ => hlength.trans ?_⟩
    cases i <;> rfl
  | invalidState hresponses => exact ⟨0x01, [], hresponses, by decide, fun _ => rfl, fun hok => absurd hok (by decide)⟩
  | contractViolation _ hresponses =>
    exact ⟨0x02, [], hresponses, by decide, fun _ => rfl, fun hok => absurd hok (by decide)⟩

/-- A request that the decoder rejects is taken and answered with the single byte 0x02; nothing else changes (R126, R130). -/
theorem step_contractViolation {s : State} {frame : Bytes} {es : List HostEvent} {e : DecodeError}
    (hpending : s.pending = .request frame :: es) (hdecode : decode s.params frame = .error e) :
    step s = .next { s with pending := es, responses := s.responses ++ [[0x02]] } :=
  step_malformed s frame es e hpending hdecode

theorem decode_reserved {p : Params} {op : Byte} (hreserved : ReservedFor p op) (rest : Bytes) :
    decode p (op :: rest) = .error (.reservedOpcode op) := by
  cases opcodeFormat p op with
  | reserved _ hdecode => exact hdecode rest
  | f0 _ hdefined | f1 _ hdefined | f2 _ hdefined => exact absurd hreserved hdefined

/-- A command that does not exist under the parameter has a reserved opcode (R58). -/
theorem reservedFor_opcode_of_absent {p : Params} {i : Instr} (h : i.present p = false) : ReservedFor p i.opcode := by
  cases i with
  | rmd160Hmac key msg => exact .inr ⟨rfl, h⟩
  | _ => cases h

/-- The decoder yields only commands that exist under the parameter. -/
theorem present_of_decode_ok {p : Params} {frame : Bytes} {i : Instr} (h : decode p frame = .ok i) :
    i.present p = true := by
  rw [← Bool.not_eq_false]
  intro habsent
  rw [← encode_of_decode_ok h, encode, decode_reserved (reservedFor_opcode_of_absent habsent)] at h
  cases h

/-- Settles O5: the causes of R57 are the complement of R49's test, a rejected frame gets `ContractViolation`, and a decoded
command exists, so it does not answer that status. -/
theorem malformedFrameRaisesContractViolation : Obligations.MalformedFrameRaisesContractViolation := by
  unfold Obligations.MalformedFrameRaisesContractViolation
  refine ⟨frameMalformed_iff_not_frameWellFormed, fun s frame es hpending => ?_⟩
  rw [frameMalformed_iff_not_frameWellFormed, ← decode_isOk_iff_frameWellFormed, not_not]
  refine ⟨fun hmalformed => ?_, fun ⟨i, hdecode⟩ => ⟨⟨i, hdecode⟩, ?_⟩⟩
  · cases hdecode : decode s.params frame with
    | ok i => exact absurd ⟨i, hdecode⟩ hmalformed
    | error e => exact step_contractViolation hpending hdecode
  · obtain ⟨t, hexec⟩ := exec_answers i (s.setPending es)
    have hstep := (step_command s frame es i hpending hdecode).trans hexec
    cases exec_responds hexec with
    | ok payload _ hresponses => exact ⟨t, 0x00, payload, hstep, hresponses, by decide⟩
    | invalidState hresponses => exact ⟨t, 0x01, [], hstep, hresponses, by decide⟩
    | contractViolation habsent _ => exact absurd (present_of_decode_ok hdecode) (ne_true_of_eq_false habsent)

/-- Settles O6: the count is evaluated over the 256 byte values, and the decoder rejects a reserved opcode whatever
follows. -/
theorem reservedOpcodesRaiseContractViolation : Obligations.ReservedOpcodesRaiseContractViolation := by
  unfold Obligations.ReservedOpcodesRaiseContractViolation
  exact ⟨by decide +kernel, fun s op rest es hpending hreserved =>
    step_contractViolation hpending (decode_reserved hreserved rest)⟩

end Sys2Proof.Machine
end

section
/-! RMD160.HMAC and its parameter (30_encoding.md R58). -/

namespace Sys2Proof.Machine

theorem exec_params {i : Instr} {s t : State} (h : exec i s = .next t) : t.params = s.params := by
  obtain rfl | rfl | heffect := exec_cases h
  · rfl
  · rfl
  · cases i with
    | rmd160Init | rmd320Init | rmd320Hmac | hex => cases heffect; rfl
    | rmd160Update | rmd160Final | rmd160Hmac | rmd320Update | rmd320Final => cases heffect.2; rfl

/-- The parameter is fixed for life: no event changes it. -/
theorem step_params {s t : State} (h : step s = .next t) : t.params = s.params := by
  obtain ⟨_, rfl⟩ | ⟨es, _, rfl⟩ | ⟨_, es, i, _, _, hexec⟩ | ⟨_, es, _, _, _, rfl⟩ := step_cases h
  · rfl
  · rfl
  · exact (exec_params hexec).trans (setPending_params s es)
  · rfl

/-- Settles O26: two encoded fields after 0x13 decode to their operands, 0x13 is reserved without the parameter, and no step
changes it. -/
theorem rmd160HmacExistsExactlyWhenPresent : Obligations.Rmd160HmacExistsExactlyWhenPresent := by
  unfold Obligations.Rmd160HmacExistsExactlyWhenPresent
  refine ⟨fun key msg hkey hmsg => ?_, decode_reserved (.inr ⟨rfl, rfl⟩), fun s t => step_params⟩
  have hkeyField := takeField_encodeField key (encodeField msg ++ []) hkey
  have hmsgField := takeField_encodeField msg [] hmsg
  rw [List.append_nil] at hkeyField hmsgField
  have hdecode : decodeF2 .rmd160Hmac (encodeField key ++ encodeField msg) = .ok (.rmd160Hmac key msg) :=
    decodeF2_ok_iff.mpr ⟨key, _, hkeyField, decodeF1_ok_iff.mpr ⟨msg, [], hmsgField, rfl⟩⟩
  rw [List.append_assoc]
  exact hdecode

end Sys2Proof.Machine
end

section
/-! The boolean functions of a step (40_compress160.md R65 to R69): each bit of the result depends on the same bit of the three
operands alone, by the function's truth table. -/

namespace Sys2Proof.Machine

theorem getLsbD_f1 (x y z : Word) (i : Nat) :
    (f1 x y z).getLsbD i = ((x.getLsbD i ^^ y.getLsbD i) ^^ z.getLsbD i) := by
  rw [f1, BitVec.getLsbD_xor, BitVec.getLsbD_xor]

/-- R66: the two terms are exclusive, so each bit is a selection by `x`. -/
theorem getLsbD_f2 (x y z : Word) {i : Nat} (hi : i < 32) :
    (f2 x y z).getLsbD i = if x.getLsbD i then y.getLsbD i else z.getLsbD i := by
  rw [f2, BitVec.getLsbD_or, BitVec.getLsbD_and, BitVec.getLsbD_and, BitVec.getLsbD_not]
  cases x.getLsbD i <;> simp [hi]

theorem getLsbD_f3 (x y z : Word) {i : Nat} (hi : i < 32) :
    (f3 x y z).getLsbD i = ((x.getLsbD i || !y.getLsbD i) ^^ z.getLsbD i) := by
  rw [f3, BitVec.getLsbD_xor, BitVec.getLsbD_or, BitVec.getLsbD_not, decide_eq_true hi, Bool.true_and]

/-- R68 is R66 with the operands in another order: `z` selects. -/
theorem f4_eq_f2 (x y z : Word) : f4 x y z = f2 z x y := by
  rw [f4, f2, BitVec.and_comm x z, BitVec.and_comm y]

/-- R69 is R67 with the operands in another order. -/
theorem f5_eq_f3 (x y z : Word) : f5 x y z = f3 y z x :=
  BitVec.xor_comm x (y ||| ~~~z)

/-- Settles O30: the truth tables bit by bit, those of `f4` and `f5` from those of `f2` and `f3`, and the rules' examples by
evaluation. -/
theorem booleanFunctionsHaveTheirTruthTables : Obligations.BooleanFunctionsHaveTheirTruthTables := by
  unfold Obligations.BooleanFunctionsHaveTheirTruthTables
  refine ⟨fun x y z i hi => ⟨getLsbD_f1 x y z i, getLsbD_f2 x y z hi, getLsbD_f3 x y z hi, ?_, ?_⟩, by decide⟩
  · rw [f4_eq_f2, getLsbD_f2 z x y hi]
  · rw [f5_eq_f3, getLsbD_f3 y z x hi, Bool.xor_comm]

end Sys2Proof.Machine
end

section
/-! The streaming commands (42_streaming.md R90, R91, R96, R97, R104): what UPDATE answers on either side of its phase gate,
and what it does with an operand of no bytes. -/

namespace Sys2Proof.Machine

theorem exec_rmd160Update_of_active {s : State} (data : Bytes) (h : s.c160.phase = .active) :
    exec (.rmd160Update data) s = .next ((s.setC160 (update160 s.c160 data)).respond .ok []) := by
  rw [exec, execRmd160Update, h, whenActive_active]

theorem exec_rmd320Update_of_active {s : State} (data : Bytes) (h : s.c320.phase = .active) :
    exec (.rmd320Update data) s = .next ((s.setC320 (update320 s.c320 data)).respond .ok []) := by
  rw [exec, execRmd320Update, h, whenActive_active]

theorem exec_rmd160Update_of_inactive {s : State} (data : Bytes) (h : s.c160.phase ≠ .active) :
    exec (.rmd160Update data) s = .next (s.raise .invalidState) :=
  whenActive_inactive _ _ _ h

theorem exec_rmd320Update_of_inactive {s : State} (data : Bytes) (h : s.c320.phase ≠ .active) :
    exec (.rmd320Update data) s = .next (s.raise .invalidState) :=
  whenActive_inactive _ _ _ h

/-- The top-off takes nothing and the buffer, which is not full, is not drained. -/
theorem absorb_nil (buf : Block) {fill : Nat} (h : fill ≤ 63) : absorb buf fill [] = ⟨[], buf, fill⟩ := by
  have htake : topOff fill 0 = 0 := by rw [topOff, Nat.min_zero, ite_self]
  have hdrain : ¬ (0 < fill ∧ fill + 0 = 64) := by omega
  simp only [absorb, List.length_nil, htake, if_neg hdrain]
  rfl

theorem update160_nil {c : Context160} (h : c.fill.toNat ≤ 63) : update160 c [] = c := by
  rw [update160, absorb_nil c.buf h, BitVec.ofNat_toNat, BitVec.setWidth_eq]
  rfl

theorem update320_nil {c : Context320} (h : c.fill.toNat ≤ 63) : update320 c [] = c := by
  rw [update320, absorb_nil c.buf h, BitVec.ofNat_toNat, BitVec.setWidth_eq]
  rfl

/-- Settles O18: the gate is passed or raises `InvalidState`, and an UPDATE of no bytes writes back the context it read. -/
theorem zeroLengthUpdateChangesNoRegister : Obligations.ZeroLengthUpdateChangesNoRegister := by
  unfold Obligations.ZeroLengthUpdateChangesNoRegister
  refine fun s => ⟨fun hactive hfill => ?_, fun hactive hfill => ?_, exec_rmd160Update_of_inactive [],
    exec_rmd320Update_of_inactive []⟩
  · rw [exec_rmd160Update_of_active [] hactive, update160_nil hfill]
    rfl
  · rw [exec_rmd320Update_of_active [] hactive, update320_nil hfill]
    rfl

/-- Settles O13: the frame decodes and INIT writes `init160`, by evaluation. -/
theorem rmd160InitGivesTheInitialContext : Obligations.Rmd160InitGivesTheInitialContext :=
  ⟨fun _ => rfl, fun _ => rfl⟩

/-- Settles O14: the frame decodes and INIT writes `init320`, by evaluation. -/
theorem rmd320InitGivesTheInitialContext : Obligations.Rmd320InitGivesTheInitialContext :=
  ⟨fun _ => rfl, fun _ => rfl⟩

end Sys2Proof.Machine
end

section
/-! Digests (42_streaming.md R95, R101): each byte that `storeWords` gives is eight bits of one word. -/

namespace Sys2Proof.Machine

theorem getElem?_st32le (v : Word) {k : Nat} (hk : k < 4) : (st32le v)[k]? = some (v.extractLsb' (8 * k) 8) := by
  obtain rfl | rfl | rfl | rfl : k = 0 ∨ k = 1 ∨ k = 2 ∨ k = 3 := by omega
  all_goals rfl

/-- Each word takes four places: byte 4·i + k of the string is byte k of word i. -/
theorem getElem?_storeWords (ws : List Word) {i k : Nat} (hi : i < ws.length) (hk : k < 4) :
    (storeWords ws)[4 * i + k]? = some ((ws.getD i 0).extractLsb' (8 * k) 8) := by
  induction ws generalizing i with
  | nil => exact absurd hi (Nat.not_lt_zero i)
  | cons w ws ih =>
    rw [storeWords_cons]
    cases i with
    | zero => rw [Nat.mul_zero, Nat.zero_add, List.getElem?_append_left hk, getElem?_st32le w hk, List.getD_cons_zero]
    | succ i =>
      have hplace : 4 * (i + 1) + k - (st32le w).length = 4 * i + k := by rw [st32le_length]; omega
      rw [List.getElem?_append_right (by rw [st32le_length]; omega), hplace, ih (Nat.lt_of_succ_lt_succ hi),
        List.getD_cons_succ]

/-- Both engines at once: the digest of `n` chaining words. -/
theorem storeWords_toList_spec {n : Nat} (h : Vector Word n) :
    (storeWords h.toList).length = 4 * n ∧ ∀ i k, i < n → k < 4 →
      (storeWords h.toList)[4 * i + k]? = some ((h.toList.getD i 0).extractLsb' (8 * k) 8) := by
  have hlength : h.toList.length = n := Vector.length_toList
  exact ⟨by rw [storeWords_length, hlength], fun i k hi hk => getElem?_storeWords _ (by rwa [hlength]) hk⟩

/-- Settles O42: `storeWords_toList_spec` for five and for ten words; the rule's example is evaluated. -/
theorem digestsSerialiseTheChainingWords : Obligations.DigestsSerialiseTheChainingWords := by
  unfold Obligations.DigestsSerialiseTheChainingWords
  exact ⟨storeWords_toList_spec, storeWords_toList_spec, by decide⟩

end Sys2Proof.Machine
end

section
/-! The byte counters and the length fields as numbers (42_streaming.md R92, R94, R98, R100). -/

namespace Sys2Proof.Machine

theorem advance320_lo_toNat (lo hi : Word) (k : Nat) : (advance320 lo hi k).1.toNat = (lo.toNat + k) % 2 ^ 32 :=
  BitVec.toNat_ofNat _ _

theorem advance320_hi_toNat (lo hi : Word) (k : Nat) :
    (advance320 lo hi k).2.toNat = if 2 ^ 32 ≤ lo.toNat + k then (hi.toNat + 1) % 2 ^ 32 else hi.toNat := by
  rw [advance320, apply_ite BitVec.toNat, BitVec.toNat_ofNat]

/-- R98's carry test: an addend below 2^32 carries exactly when the low word ends below it. -/
theorem carry_iff (lo : Word) {k : Nat} (hk : k ≤ 64) : 2 ^ 32 ≤ lo.toNat + k ↔ (lo.toNat + k) % 2 ^ 32 < k := by
  have hlo := lo.isLt
  omega

theorem shiftLeft_three_toNat {w : Nat} (v : BitVec w) : (v <<< 3).toNat = v.toNat * 8 % 2 ^ w := by
  rw [BitVec.toNat_shiftLeft, Nat.shiftLeft_eq]

/-- The shift of R94 and R100 multiplies by 8 in the width of its word. -/
theorem shiftLeft_three_eq_ofNat {w : Nat} (v : BitVec w) : v <<< 3 = BitVec.ofNat w (v.toNat * 8 % 2 ^ w) := by
  rw [← shiftLeft_three_toNat, BitVec.ofNat_toNat, BitVec.setWidth_eq]

/-- The shift of R94 drops the top three bits of the counter, so the length field does not depend on them. -/
theorem bitlen160_low61 (len : Dword) : bitlen160 len = bitlen160 (BitVec.ofNat 64 (len.toNat % 2 ^ 61)) := by
  have hshift : len <<< 3 = BitVec.ofNat 64 (len.toNat % 2 ^ 61) <<< 3 := by
    apply BitVec.eq_of_toNat_eq
    rw [shiftLeft_three_toNat, shiftLeft_three_toNat, BitVec.toNat_ofNat]
    omega
  rw [bitlen160, hshift, bitlen160]

theorem bitlen320_eq (lo hi : Word) :
    bitlen320 lo hi = st32le (BitVec.ofNat 32 (lo.toNat * 8 % 2 ^ 32))
      ++ st32le (BitVec.ofNat 32 (hi.toNat * 8 % 2 ^ 32 + lo.toNat / 2 ^ 29)) := by
  have hhigh : BitVec.ofNat 32 (hi.toNat * 8 % 2 ^ 32 + lo.toNat / 2 ^ 29) = (hi <<< 3) ||| (lo >>> 29) := by
    rw [Nat.mul_comm, ← bitlen320_high, BitVec.ofNat_toNat, BitVec.setWidth_eq]
  rw [bitlen320, hhigh, ← shiftLeft_three_eq_ofNat]

/-- Settles O39: both counters as numbers, R98's carry test, and the bits that the length field drops; the rule's example is
evaluated. -/
theorem countersAdvanceModulo2Pow64 : Obligations.CountersAdvanceModulo2Pow64 := by
  unfold Obligations.CountersAdvanceModulo2Pow64
  exact ⟨fun len k _ => advance160_toNat len k, bitlen160_low61,
    fun lo hi k hk => ⟨advance320_lo_toNat lo hi k, advance320_hi_toNat lo hi k, carry_iff lo hk⟩, by decide⟩

/-- Settles O40: the shifts as products, the high word of Engine-320 from `bitlen320_high`; the rules' examples are
evaluated. -/
theorem lengthFieldsHoldTheBitLength : Obligations.LengthFieldsHoldTheBitLength := by
  unfold Obligations.LengthFieldsHoldTheBitLength
  exact ⟨fun len => congrArg st64le (shiftLeft_three_eq_ofNat len), bitlen320_eq, by decide⟩

end Sys2Proof.Machine
end

section
/-! RMD320.HMAC (43_hmac.md R111 to R114): the controller's pads are R112 and R113's by index, since no reduced key is longer than
64 bytes. -/

namespace Sys2Proof.Machine

/-- Two encoded fields are format F2's operands (R51). -/
theorem decodeF2_encodeField_append (mk : Bytes → Bytes → Instr) {key msg : Bytes} (hkey : key.length < 2 ^ 32)
    (hmsg : msg.length < 2 ^ 32) : decodeF2 mk (encodeField key ++ encodeField msg) = .ok (mk key msg) := by
  have hkeyField := takeField_encodeField key (encodeField msg) hkey
  have hmsgField := takeField_encodeField msg [] hmsg
  rw [List.append_nil] at hmsgField
  exact decodeF2_ok_iff.mpr ⟨key, _, hkeyField, decodeF1_ok_iff.mpr ⟨msg, [], hmsgField, rfl⟩⟩

/-- `K0` by index: a byte of the key, and 0x00 beyond it (R112). -/
theorem zeroExtend_eq_map_getD {kred : Bytes} (h : kred.length ≤ 64) :
    zeroExtend kred = (List.range 64).map fun i => kred.getD i 0x00 := by
  apply List.ext_getElem
  · simp only [zeroExtend, List.length_append, zeros_length, List.length_map, List.length_range]
    omega
  · intro i _ _
    by_cases hi : i < kred.length
    · simp [zeroExtend, hi]
    · simp [zeroExtend, zeros, hi, List.getElem_append_right (Nat.le_of_not_lt hi)]

/-- The pad that the controller computes is the pad by index, for a key that fits a block (R113). -/
theorem padKey_zeroExtend {kred : Bytes} (h : kred.length ≤ 64) (padByte : Byte) :
    padKey (zeroExtend kred) padByte = hmacPad kred padByte := by
  rw [padKey, zeroExtend_eq_map_getD h, List.map_map]
  rfl

theorem reduceKey_length_le {H : Bytes → Bytes} (hH : ∀ m, (H m).length ≤ 64) (key : Bytes) :
    (reduceKey H key).length ≤ 64 := by
  by_cases hlong : 64 < key.length
  · rw [reduceKey, if_pos hlong]
    exact hH key
  · rw [reduceKey, if_neg hlong]
    exact Nat.le_of_not_lt hlong

/-- The construction over any hash whose digest fits a block, with its pads by index (R114, R116). -/
theorem hmacTag_eq_hmacPad {H : Bytes → Bytes} (hH : ∀ m, (H m).length ≤ 64) (key msg : Bytes) :
    hmacTag H key msg =
      H (hmacPad (reduceKey H key) 0x5c ++ H (hmacPad (reduceKey H key) 0x36 ++ msg)) := by
  have hkred := reduceKey_length_le hH key
  rw [hmacTag, padKey_zeroExtend hkred, padKey_zeroExtend hkred]

theorem hash320_length_le (m : Bytes) : (hash320 m).length ≤ 64 :=
  (hash320_length m).trans_le (by decide)

/-- In every state the command answers the tag and writes no register (R114, R115). -/
theorem exec_rmd320Hmac (key msg : Bytes) (s : State) :
    exec (.rmd320Hmac key msg) s = .next (s.respond .ok
      (hash320 (hmacPad (reduceKey hash320 key) 0x5c ++ hash320 (hmacPad (reduceKey hash320 key) 0x36 ++ msg)))) := by
  rw [exec, execRmd320Hmac, hmacTag_eq_hmacPad hash320_length_le]

/-- R114's example, the inner digest of "key" with `quickBrownFox`. -/
theorem hash320_innerPad_quickBrownFox :
    hash320 (hmacPad [0x6b, 0x65, 0x79] 0x36 ++ quickBrownFox) =
      [0x06, 0x0d, 0xb2, 0xbb, 0xbc, 0xaa, 0xfc, 0x43, 0x5b, 0x6c, 0x87, 0xa4, 0x83, 0xa5, 0xfd, 0x84,
      0x9c, 0xa8, 0xc4, 0x7f, 0x30, 0xa7, 0x8e, 0x53, 0x40, 0x7b, 0x33, 0x45, 0xbb, 0x4a, 0x72, 0xdb,
      0xf3, 0x9b, 0xaf, 0x5e, 0xe8, 0xee, 0x71, 0xbd] := by decide +kernel

/-- Settles O24: the tag from `exec_rmd320Hmac`, the frame from the two encoded fields of format F2, and the rules' examples by
evaluation, the tag's from its inner digest. -/
theorem rmd320HmacGivesTheTag : Obligations.Rmd320HmacGivesTheTag := by
  unfold Obligations.Rmd320HmacGivesTheTag
  refine ⟨?_, hash320_length, fun p key msg hkey hmsg => ?_, by decide +kernel, by decide, by decide,
    hash320_innerPad_quickBrownFox, ?_⟩
  · rintro s key msg kred rfl
    exact exec_rmd320Hmac key msg s
  · rw [List.append_assoc]
    exact decodeF2_encodeField_append .rmd320Hmac hkey hmsg
  · rw [hash320_innerPad_quickBrownFox]
    decide +kernel

end Sys2Proof.Machine
end

section
/-! HEX (44_hex.md R119, R120): the digit of a nibble as a number, and which nibble stands at which place of the payload. -/

namespace Sys2Proof.Machine

/-- R119's table as a number: neither sum wraps in its byte. -/
theorem toNat_nib {v : Byte} (hv : v.toNat ≤ 15) :
    (nib v).toNat = if v.toNat ≤ 9 then 0x30 + v.toNat else 0x61 + (v.toNat - 10) := by
  by_cases hdigit : v ≤ 9
  · have hnat : v.toNat ≤ 9 := hdigit
    rw [nib, if_pos hdigit, if_pos hnat]
    bv_omega
  · have hnat : ¬ v.toNat ≤ 9 := hdigit
    rw [nib, if_neg hdigit, if_neg hnat]
    bv_omega

theorem toNat_highNibble (b : Byte) : (b >>> 4).toNat = b.toNat / 16 :=
  (BitVec.toNat_ushiftRight b 4).trans (Nat.shiftRight_eq_div_pow b.toNat 4)

theorem toNat_lowNibble (b : Byte) : (b &&& 0x0F).toNat = b.toNat % 16 :=
  Nat.and_two_pow_sub_one_eq_mod b.toNat 4

theorem toNat_nib_highNibble (b : Byte) :
    (nib (b >>> 4)).toNat = if b.toNat / 16 ≤ 9 then 0x30 + b.toNat / 16 else 0x61 + (b.toNat / 16 - 10) := by
  have hb := b.isLt
  rw [toNat_nib (by rw [toNat_highNibble]; omega), toNat_highNibble]

theorem toNat_nib_lowNibble (b : Byte) :
    (nib (b &&& 0x0F)).toNat = if b.toNat % 16 ≤ 9 then 0x30 + b.toNat % 16 else 0x61 + (b.toNat % 16 - 10) := by
  rw [toNat_nib (by rw [toNat_lowNibble]; omega), toNat_lowNibble]

/-- Each byte takes two places, its high nibble's character first. -/
theorem getElem?_hexChars (data : Bytes) (i : Nat) :
    (hexChars data)[2 * i]? = data[i]?.map (fun b : Byte => nib (b >>> 4))
      ∧ (hexChars data)[2 * i + 1]? = data[i]?.map (fun b : Byte => nib (b &&& 0x0F)) := by
  induction data generalizing i with
  | nil => exact ⟨rfl, rfl⟩
  | cons b bs ih =>
    cases i with
    | zero => exact ⟨rfl, rfl⟩
    | succ i => exact ih i

/-- An encoded field is format F1's operand (R51). -/
theorem decodeF1_encodeField (mk : Bytes → Instr) {data : Bytes} (hdata : data.length < 2 ^ 32) :
    decodeF1 mk (encodeField data) = .ok (mk data) := by
  have hfield := takeField_encodeField data [] hdata
  rw [List.append_nil] at hfield
  exact decodeF1_ok_iff.mpr ⟨data, [], hfield, rfl⟩

/-- Settles O28: the payload is `hexChars`, its characters by place (`getElem?_hexChars`) and as numbers (`toNat_nib`), and the
frame is one encoded field of format F1; the rule's example is evaluated. -/
theorem hexGivesTwoCharactersPerByte : Obligations.HexGivesTwoCharactersPerByte := by
  unfold Obligations.HexGivesTwoCharactersPerByte
  refine ⟨fun s data => ⟨hexChars data, rfl, hexChars_length data, fun i b hb => ?_⟩,
    fun p data hdata => decodeF1_encodeField .hex hdata, by decide⟩
  obtain ⟨hhigh, hlow⟩ := getElem?_hexChars data i
  rw [hb] at hhigh hlow
  exact ⟨⟨_, hhigh, toNat_nib_highNibble b⟩, ⟨_, hlow, toNat_nib_lowNibble b⟩⟩

end Sys2Proof.Machine
end

section
/-! The phase gate's fault (60_exceptions.md R127, R130): a data command whose own context is not ACTIVE appends one status
byte. -/

namespace Sys2Proof.Machine

theorem exec_rmd160Final_of_inactive {s : State} (h : s.c160.phase ≠ .active) :
    exec .rmd160Final s = .next (s.raise .invalidState) :=
  whenActive_inactive _ _ _ h

theorem exec_rmd320Final_of_inactive {s : State} (h : s.c320.phase ≠ .active) :
    exec .rmd320Final s = .next (s.raise .invalidState) :=
  whenActive_inactive _ _ _ h

/-- Raising writes no register and leaves the host's events (R130). -/
theorem raise_invalidState (s : State) :
    s.raise .invalidState = { s with responses := s.responses ++ [[0x01]] } := rfl

/-- Settles O23: on either engine both data commands stop at the phase gate, which reads their own context only. -/
theorem dataCommandsNeedAnActiveContext : Obligations.DataCommandsNeedAnActiveContext := by
  unfold Obligations.DataCommandsNeedAnActiveContext
  intro s
  rw [← raise_invalidState]
  exact ⟨fun h => ⟨fun data => exec_rmd160Update_of_inactive data h, exec_rmd160Final_of_inactive h⟩,
    fun h => ⟨fun data => exec_rmd320Update_of_inactive data h, exec_rmd320Final_of_inactive h⟩⟩

end Sys2Proof.Machine
end

section
/-! The decoder undoes the encoder, and the encoder the decoder (30_encoding.md R49 to R51, R55). -/

namespace Sys2Proof

open Sys2Proof.Machine

theorem operandFits_of_lt {data : Bytes} (h : data.length < 2 ^ 32) : operandFits data = true :=
  (operandFits_iff data).mpr h

/-! What the formats accept is built from operands that fit their length words. -/

theorem decodeF1_ok {mk : Bytes → Instr} {rest : Bytes} {i : Instr} (h : decodeF1 mk rest = .ok i) :
    ∃ data, operandFits data = true ∧ mk data = i := by
  obtain ⟨data, after, hfield, hend⟩ := decodeF1_ok_iff.mp h
  exact ⟨data, operandFits_of_lt (takeField_ok hfield).2, (decodeF0_ok_iff.mp hend).2⟩

theorem decodeF2_ok {mk : Bytes → Bytes → Instr} {rest : Bytes} {i : Instr} (h : decodeF2 mk rest = .ok i) :
    ∃ key msg, operandFits key = true ∧ operandFits msg = true ∧ mk key msg = i := by
  obtain ⟨key, after, hkey, hmsg⟩ := decodeF2_ok_iff.mp h
  obtain ⟨msg, hfits, hi⟩ := decodeF1_ok hmsg
  exact ⟨key, msg, operandFits_of_lt (takeField_ok hkey).2, hfits, hi⟩

/-- What decodes is the encoding of its own result, so its opcode tells the format that built it. -/
theorem wellFormed_of_decode_ok {p : Params} {frame : Bytes} {i : Instr} (h : decode p frame = .ok i) :
    i.wellFormed = true := by
  have hpresent := present_of_decode_ok h
  rw [← encode_of_decode_ok h] at h
  cases i with
  | rmd160Init | rmd160Final | rmd320Init | rmd320Final => rfl
  | rmd160Update data | rmd320Update data | hex data =>
    obtain ⟨_, hfits, hdata⟩ := decodeF1_ok h
    cases hdata
    exact hfits
  | rmd160Hmac key msg =>
    have hdecode : decodeF2 .rmd160Hmac ([key, msg].flatMap encodeField) = .ok (.rmd160Hmac key msg) :=
      (if_pos hpresent).symm.trans h
    obtain ⟨_, _, hkey, hmsg, hoperands⟩ := decodeF2_ok hdecode
    cases hoperands
    exact Bool.and_eq_true_iff.mpr ⟨hkey, hmsg⟩
  | rmd320Hmac key msg =>
    obtain ⟨_, _, hkey, hmsg, hoperands⟩ := decodeF2_ok h
    cases hoperands
    exact Bool.and_eq_true_iff.mpr ⟨hkey, hmsg⟩

/-! The operand fields of an encoding are accepted by their format. -/

theorem decodeF1_flatMap (mk : Bytes → Instr) {data : Bytes} (hfits : operandFits data = true) :
    decodeF1 mk ([data].flatMap encodeField) = .ok (mk data) := by
  rw [List.flatMap_singleton]
  exact decodeF1_encodeField mk ((operandFits_iff data).mp hfits)

theorem decodeF2_flatMap (mk : Bytes → Bytes → Instr) {key msg : Bytes}
    (hfits : (operandFits key && operandFits msg) = true) :
    decodeF2 mk ([key, msg].flatMap encodeField) = .ok (mk key msg) := by
  obtain ⟨hkey, hmsg⟩ := Bool.and_eq_true_iff.mp hfits
  rw [List.flatMap_cons, List.flatMap_singleton]
  exact decodeF2_encodeField_append mk ((operandFits_iff key).mp hkey) ((operandFits_iff msg).mp hmsg)

/-- Settles O2: the opcode selects the format, and the format reads back the operand fields of the encoding. -/
theorem decodeEncodeRoundTrip : Obligations.DecodeEncodeRoundTrip := by
  unfold Obligations.DecodeEncodeRoundTrip
  intro p i hwf hpresent
  cases i with
  | rmd160Init | rmd160Final | rmd320Init | rmd320Final => rfl
  | rmd160Update data => exact decodeF1_flatMap .rmd160Update hwf
  | rmd160Hmac key msg => exact (if_pos hpresent).trans (decodeF2_flatMap .rmd160Hmac hwf)
  | rmd320Update data => exact decodeF1_flatMap .rmd320Update hwf
  | rmd320Hmac key msg => exact decodeF2_flatMap .rmd320Hmac hwf
  | hex data => exact decodeF1_flatMap .hex hwf

/-- Settles O3: the operands come from taken fields, so they fit; the command exists; and every bit of the frame was read. -/
theorem decodedFrameIsTheEncoding : Obligations.DecodedFrameIsTheEncoding := by
  unfold Obligations.DecodedFrameIsTheEncoding
  exact fun p frame i hdecode =>
    ⟨wellFormed_of_decode_ok hdecode, present_of_decode_ok hdecode, encode_of_decode_ok hdecode⟩

/-- Settles O1: each frame is decoded byte by byte, by evaluation. -/
theorem decodeOfWrittenOutFrames : Obligations.DecodeOfWrittenOutFrames :=
  fun _ => ⟨rfl, rfl, rfl, rfl, rfl, rfl, rfl, rfl, rfl, rfl, rfl, rfl, rfl, rfl, rfl⟩

end Sys2Proof
end

section
/-! What one command and one step leave unchanged, which phases they move to, and what a fault leaves behind (60_exceptions.md
section 2, 70_reset_and_hazards.md section 1). -/

namespace Sys2Proof.Machine

/-! ## One command -/

theorem exec_rmd160Final_of_active {s : State} (h : s.c160.phase = .active) :
    exec .rmd160Final s = .next
      (((s.setC160 (unspecified160 s.freeCount .spent)).drawFree).respond .ok (digest160 s.c160)) := by
  rw [exec, execRmd160Final, h, whenActive_active]

theorem exec_rmd320Final_of_active {s : State} (h : s.c320.phase = .active) :
    exec .rmd320Final s = .next
      (((s.setC320 (unspecified320 s.freeCount .spent)).drawFree).respond .ok (digest320 s.c320)) := by
  rw [exec, execRmd320Final, h, whenActive_active]

theorem exec_rmd160Hmac_of_present {s : State} (key msg : Bytes) (h : s.params.hmac160Present = true) :
    exec (.rmd160Hmac key msg) s = .next (s.respond .ok (hmacTag hash160 key msg)) := by
  rw [exec, execRmd160Hmac, if_pos h]

theorem exec_rmd160Hmac_of_absent {s : State} (key msg : Bytes) (h : ¬ s.params.hmac160Present = true) :
    exec (.rmd160Hmac key msg) s = .next (s.raise .contractViolation) := by
  rw [exec, execRmd160Hmac, if_neg h]

/-- Settles O12: each command is `exec` past its own gate, or has none. -/
theorem commandsCompleteWhenTheirContextAllows : Obligations.CommandsCompleteWhenTheirContextAllows := by
  unfold Obligations.CommandsCompleteWhenTheirContextAllows
  intro s data key msg
  refine ⟨⟨_, rfl, rfl⟩, ⟨_, rfl, rfl⟩, ⟨_, _, rfl, rfl⟩, ⟨_, _, rfl, rfl⟩, fun hpresent => ?_, fun hactive => ?_,
    fun hactive => ?_⟩
  · exact ⟨_, _, exec_rmd160Hmac_of_present key msg hpresent, rfl⟩
  · exact ⟨⟨_, exec_rmd160Update_of_active data hactive, rfl⟩, ⟨_, _, exec_rmd160Final_of_active hactive, rfl⟩⟩
  · exact ⟨⟨_, exec_rmd320Update_of_active data hactive, rfl⟩, ⟨_, _, exec_rmd320Final_of_active hactive, rfl⟩⟩

theorem exec_rmd160Hmac_cases {key msg : Bytes} {s t : State} (h : exec (.rmd160Hmac key msg) s = .next t) :
    t = s.respond .ok (hmacTag hash160 key msg) ∨ t = s.raise .contractViolation := by
  by_cases hpresent : s.params.hmac160Present = true
  · rw [exec_rmd160Hmac_of_present key msg hpresent] at h
    cases h
    exact .inl rfl
  · rw [exec_rmd160Hmac_of_absent key msg hpresent] at h
    cases h
    exact .inr rfl

/-- Settles O53: on either side of its gate a command writes at most its own engine's bank, and appends one response. -/
theorem commandsLeaveTheRestUnchanged : Obligations.CommandsLeaveTheRestUnchanged := by
  unfold Obligations.CommandsLeaveTheRestUnchanged
  intro i s t hexec
  cases i with
  | rmd160Init | rmd320Init => cases hexec; exact ⟨rfl, rfl, ⟨_, rfl⟩, rfl⟩
  | rmd320Hmac | hex => cases hexec; exact ⟨rfl, rfl, ⟨_, rfl⟩, rfl, rfl⟩
  | rmd160Update | rmd320Update =>
    obtain ⟨_, rfl⟩ | ⟨_, rfl⟩ := whenActive_cases hexec
    · exact ⟨rfl, rfl, ⟨_, rfl⟩, rfl, rfl⟩
    · exact ⟨rfl, rfl, ⟨_, rfl⟩, rfl, rfl⟩
  | rmd160Final | rmd320Final =>
    obtain ⟨_, rfl⟩ | ⟨_, rfl⟩ := whenActive_cases hexec
    · exact ⟨rfl, rfl, ⟨_, rfl⟩, rfl⟩
    · exact ⟨rfl, rfl, ⟨_, rfl⟩, rfl⟩
  | rmd160Hmac key msg =>
    obtain rfl | rfl := exec_rmd160Hmac_cases hexec
    · exact ⟨rfl, rfl, ⟨_, rfl⟩, rfl, rfl⟩
    · exact ⟨rfl, rfl, ⟨_, rfl⟩, rfl, rfl⟩

theorem exec_pending {i : Instr} {s t : State} (h : exec i s = .next t) : t.pending = s.pending :=
  (commandsLeaveTheRestUnchanged i s t h).2.1

theorem exec_response {i : Instr} {s t : State} (h : exec i s = .next t) :
    ∃ response, t.responses = s.responses ++ [response] :=
  (commandsLeaveTheRestUnchanged i s t h).2.2.1

/-- Settles O54: INIT has no gate, UPDATE keeps the phase on both sides of its gate, FINAL spends an ACTIVE context only, and HMAC
and HEX write no bank. -/
theorem commandsMoveThePhasesByTheLifecycle : Obligations.CommandsMoveThePhasesByTheLifecycle := by
  unfold Obligations.CommandsMoveThePhasesByTheLifecycle
  intro i s t hexec
  cases i with
  | rmd160Init | rmd320Init | rmd320Hmac | hex => cases hexec; exact ⟨rfl, rfl⟩
  | rmd160Update data | rmd320Update data =>
    obtain ⟨_, rfl⟩ | ⟨_, rfl⟩ := whenActive_cases hexec
    · exact ⟨rfl, rfl⟩
    · exact ⟨rfl, rfl⟩
  | rmd160Final =>
    obtain ⟨hactive, rfl⟩ | ⟨hinactive, rfl⟩ := whenActive_cases hexec
    · exact ⟨(if_pos hactive).symm, rfl⟩
    · exact ⟨(if_neg hinactive).symm, rfl⟩
  | rmd320Final =>
    obtain ⟨hactive, rfl⟩ | ⟨hinactive, rfl⟩ := whenActive_cases hexec
    · exact ⟨rfl, (if_pos hactive).symm⟩
    · exact ⟨rfl, (if_neg hinactive).symm⟩
  | rmd160Hmac key msg =>
    obtain rfl | rfl := exec_rmd160Hmac_cases hexec
    · exact ⟨rfl, rfl⟩
    · exact ⟨rfl, rfl⟩

/-- A row of the lifecycle table never ends in UNINIT unless it began there. -/
theorem uninit_of_final_uninit {p : Phase} (h : (if p = .active then .spent else p) = Phase.uninit) : p = .uninit := by
  cases p with
  | uninit => rfl
  | active | spent => cases h

theorem exec_uninit {i : Instr} {s t : State} (h : exec i s = .next t) :
    (t.c160.phase = .uninit → s.c160.phase = .uninit) ∧ (t.c320.phase = .uninit → s.c320.phase = .uninit) := by
  obtain ⟨h160, h320⟩ := commandsMoveThePhasesByTheLifecycle i s t h
  rw [h160, h320]
  cases i with
  | rmd160Init => exact ⟨(fun hphase => nomatch hphase), id⟩
  | rmd320Init => exact ⟨id, (fun hphase => nomatch hphase)⟩
  | rmd160Final => exact ⟨uninit_of_final_uninit, id⟩
  | rmd320Final => exact ⟨id, uninit_of_final_uninit⟩
  | rmd160Update | rmd160Hmac | rmd320Update | rmd320Hmac | hex => exact ⟨id, id⟩

/-- A command completes with status OK, or it raises one of the two faults. -/
theorem exec_ok_or_raise {i : Instr} {s t : State} (h : exec i s = .next t) :
    (∃ payload, t.responses = s.responses ++ [0x00 :: payload])
      ∨ t = s.raise .invalidState ∨ t = s.raise .contractViolation := by
  obtain hraise | hraise | heffect := exec_cases h
  · exact .inr (.inl hraise)
  · exact .inr (.inr hraise)
  · cases i with
    | rmd160Init | rmd320Init | rmd320Hmac | hex => cases heffect; exact .inl ⟨_, rfl⟩
    | rmd160Update | rmd160Final | rmd160Hmac | rmd320Update | rmd320Final => cases heffect.2; exact .inl ⟨_, rfl⟩

/-! ## One step -/

/-- Settles O7: a decoded frame is a command for `step`. -/
theorem stepRunsTheDecodedCommand : Obligations.StepRunsTheDecodedCommand := by
  unfold Obligations.StepRunsTheDecodedCommand
  exact step_command

/-- Settles O8: the reset event writes both banks and nothing the host sees. -/
theorem resetEventMakesBothContextsUninit : Obligations.ResetEventMakesBothContextsUninit := by
  unfold Obligations.ResetEventMakesBothContextsUninit
  exact fun s es hpending => ⟨_, step_reset s es hpending, rfl, rfl, rfl, rfl, rfl⟩

/-- Settles O9: without an event there is nothing to fetch. -/
theorem idleBlockHoldsItsState : Obligations.IdleBlockHoldsItsState := by
  unfold Obligations.IdleBlockHoldsItsState
  exact step_idle

theorem step_answers (s : State) : ∃ t, step s = .next t := by
  cases hpending : s.pending with
  | nil => exact ⟨_, step_idle s hpending⟩
  | cons event es =>
    cases event with
    | reset => exact ⟨_, step_reset s es hpending⟩
    | request frame =>
      cases hdecode : decode s.params frame with
      | ok i =>
        obtain ⟨t, hexec⟩ := exec_answers i (s.setPending es)
        exact ⟨t, (step_command s frame es i hpending hdecode).trans hexec⟩
      | error e => exact ⟨_, step_malformed s frame es e hpending hdecode⟩

/-- What a step does with a request: it runs the command that the frame decodes to, or raises `ContractViolation`. -/
theorem step_request_cases {s t : State} {frame : Bytes} {es : List HostEvent} (hpending : s.pending = .request frame :: es)
    (h : step s = .next t) :
    (∃ i, exec i (s.setPending es) = .next t) ∨ t = (s.setPending es).raise .contractViolation := by
  cases hdecode : decode s.params frame with
  | ok i => exact .inl ⟨i, (step_command s frame es i hpending hdecode).symm.trans h⟩
  | error e =>
    rw [step_malformed s frame es e hpending hdecode] at h
    cases h
    exact .inr rfl

/-- Settles O10: `step` answers in every state, and a request's command or its rejection appends one response. -/
theorem stepAlwaysAnswers : Obligations.StepAlwaysAnswers := by
  unfold Obligations.StepAlwaysAnswers
  intro s
  obtain ⟨t, hstep⟩ := step_answers s
  refine ⟨t, hstep, fun frame es hpending => ?_⟩
  obtain ⟨i, hexec⟩ | rfl := step_request_cases hpending hstep
  · exact ⟨exec_pending hexec, exec_response (s := s.setPending es) hexec⟩
  · exact ⟨rfl, _, rfl⟩

/-- Settles O55: a step that is no reset is idle, a fault, or a command, and no command leads to UNINIT. -/
theorem onlyResetReturnsToUninit : Obligations.OnlyResetReturnsToUninit := by
  unfold Obligations.OnlyResetReturnsToUninit
  intro s t hstep hnoReset
  obtain ⟨_, rfl⟩ | ⟨es, hreset, _⟩ | ⟨_, es, _, _, _, hexec⟩ | ⟨_, _, _, _, _, rfl⟩ := step_cases hstep
  · exact ⟨id, id⟩
  · exact absurd hreset (hnoReset es)
  · exact exec_uninit (s := s.setPending es) hexec
  · exact ⟨id, id⟩

/-- A request is answered with status OK, or with one status byte and no other change. -/
theorem step_request_ok_or_fault {s t : State} {frame : Bytes} {es : List HostEvent}
    (hpending : s.pending = .request frame :: es) (h : step s = .next t) :
    (∃ payload, t.responses = s.responses ++ [0x00 :: payload])
      ∨ ∃ status, (status = 0x01 ∨ status = 0x02)
        ∧ t = { s with pending := es, responses := s.responses ++ [[status]] } := by
  obtain ⟨i, hexec⟩ | rfl := step_request_cases hpending h
  · obtain hok | rfl | rfl := exec_ok_or_raise hexec
    · exact .inl hok
    · exact .inr ⟨0x01, .inl rfl, rfl⟩
    · exact .inr ⟨0x02, .inr rfl, rfl⟩
  · exact .inr ⟨0x02, .inr rfl, rfl⟩

theorem response_inj {responses : List Bytes} {r r' : Bytes} (h : responses ++ [r] = responses ++ [r']) : r = r' :=
  List.singleton_inj.mp (List.append_cancel_left h)

/-- Settles O56: a non-zero status is that of a fault, which changes nothing but the events and the responses. -/
theorem faultsLeaveEveryRegisterUnchanged : Obligations.FaultsLeaveEveryRegisterUnchanged := by
  unfold Obligations.FaultsLeaveEveryRegisterUnchanged
  intro s t frame es status payload hpending hstep hresponses hstatus
  obtain ⟨_, hok⟩ | ⟨code, hcode, rfl⟩ := step_request_ok_or_fault hpending hstep
  · exact absurd (List.cons.inj (response_inj (hresponses.symm.trans hok))).1 hstatus
  · obtain ⟨rfl, rfl⟩ := List.cons.inj (response_inj hresponses)
    exact ⟨rfl, hcode, rfl⟩

/-! ## The earlier responses are never read -/

/-- `f` runs on `s` in the same way whatever responses have been given before, and appends one. -/
def AnswersAfterAnyResponses (f : State → Host.Outcome State Fault Refusal) (s : State) : Prop :=
  ∃ (t : State) (response : Bytes), ∀ earlier : List Bytes,
    f { s with responses := earlier } = .next { t with responses := earlier ++ [response] }

theorem answersAfterAnyResponses_of_gate {f : State → Host.Outcome State Fault Refusal} {p : Phase} {s t : State}
    {response : Bytes}
    (hgate : ∀ earlier : List Bytes, f { s with responses := earlier }
      = whenActive p { s with responses := earlier } { t with responses := earlier ++ [response] }) :
    AnswersAfterAnyResponses f s := by
  by_cases hactive : p = .active
  · subst hactive
    exact ⟨t, response, hgate⟩
  · exact ⟨s, [0x01], fun earlier => (hgate earlier).trans (whenActive_inactive _ _ _ hactive)⟩

theorem exec_answersAfterAnyResponses (i : Instr) (s : State) : AnswersAfterAnyResponses (exec i) s := by
  cases i with
  | rmd160Init => exact ⟨s.setC160 init160, [0x00], fun _ => rfl⟩
  | rmd160Update data =>
    exact answersAfterAnyResponses_of_gate (p := s.c160.phase) (t := s.setC160 (update160 s.c160 data))
      (response := [0x00]) fun _ => rfl
  | rmd160Final =>
    exact answersAfterAnyResponses_of_gate (p := s.c160.phase)
      (t := (s.setC160 (unspecified160 s.freeCount .spent)).drawFree) (response := 0x00 :: digest160 s.c160) fun _ => rfl
  | rmd160Hmac key msg =>
    by_cases hpresent : s.params.hmac160Present = true
    · exact ⟨s, 0x00 :: hmacTag hash160 key msg, fun _ => exec_rmd160Hmac_of_present key msg hpresent⟩
    · exact ⟨s, [0x02], fun _ => exec_rmd160Hmac_of_absent key msg hpresent⟩
  | rmd320Init => exact ⟨s.setC320 init320, [0x00], fun _ => rfl⟩
  | rmd320Update data =>
    exact answersAfterAnyResponses_of_gate (p := s.c320.phase) (t := s.setC320 (update320 s.c320 data))
      (response := [0x00]) fun _ => rfl
  | rmd320Final =>
    exact answersAfterAnyResponses_of_gate (p := s.c320.phase)
      (t := (s.setC320 (unspecified320 s.freeCount .spent)).drawFree) (response := 0x00 :: digest320 s.c320) fun _ => rfl
  | rmd320Hmac key msg => exact ⟨s, 0x00 :: hmacTag hash320 key msg, fun _ => rfl⟩
  | hex data => exact ⟨s, 0x00 :: hexChars data, fun _ => rfl⟩

theorem step_request_answersAfterAnyResponses {s : State} {frame : Bytes} {es : List HostEvent}
    (hpending : s.pending = .request frame :: es) : AnswersAfterAnyResponses step s := by
  cases hdecode : decode s.params frame with
  | ok i =>
    obtain ⟨t, response, hexec⟩ := exec_answersAfterAnyResponses i (s.setPending es)
    exact ⟨t, response, fun earlier =>
      (step_command { s with responses := earlier } frame es i hpending hdecode).trans (hexec earlier)⟩
  | error e =>
    exact ⟨s.setPending es, [0x02], fun earlier =>
      step_malformed { s with responses := earlier } frame es e hpending hdecode⟩

/-- Settles O57: the fault leaves the state it found but for its own response, which the next step does not read. -/
theorem requestAfterAFaultRunsAsIfItWereFirst : Obligations.RequestAfterAFaultRunsAsIfItWereFirst := by
  unfold Obligations.RequestAfterAFaultRunsAsIfItWereFirst
  intro s t u bad frame es status hpending hstep hresponses hstatus hnext
  obtain ⟨-, -, rfl⟩ :=
    faultsLeaveEveryRegisterUnchanged s t bad _ status [] hpending hstep hresponses hstatus
  obtain ⟨v, response, hanswers⟩ :=
    step_request_answersAfterAnyResponses (s := { s with pending := .request frame :: es }) rfl
  have hsecond := hanswers (s.responses ++ [[status]])
  rw [hsecond] at hnext
  cases hnext
  exact ⟨response, List.append_assoc _ _ _, hanswers s.responses⟩

/-! ## A platform of several instances -/

/-- The named one moves by its own step, and its result is written back in its place. -/
theorem platformStep_of_step {p : Platform} {k : Nat} {s t : State} (hinstance : p.instances[k]? = some s)
    (hstep : step s = .next t) : platformStep k p = .next ⟨p.instances.set k t⟩ := by
  simp only [platformStep, hinstance, hstep]

/-- Settles O60: writing one place of the list of instances leaves every other place. -/
theorem instancesOfAPlatformAreIndependent : Obligations.InstancesOfAPlatformAreIndependent := by
  unfold Obligations.InstancesOfAPlatformAreIndependent
  intro p k s hinstance
  obtain ⟨t, hstep⟩ := step_answers s
  obtain ⟨hk, _⟩ := List.getElem?_eq_some_iff.mp hinstance
  exact ⟨t, _, hstep, platformStep_of_step hinstance hstep, List.length_set,
    List.getElem?_set_self hk, fun j hj => List.getElem?_set_ne (Ne.symm hj)⟩

end Sys2Proof.Machine
end

section
/-! UPDATE and FINAL on an ACTIVE context (42_streaming.md R91 to R105), and the invariant of both contexts (10_state.md R25,
R26). -/

namespace Sys2Proof.Machine

/-! ## UPDATE -/

theorem c160_after_update {s t : State} {data : Bytes} (hactive : s.c160.phase = .active)
    (h : exec (.rmd160Update data) s = .next t) : t.c160 = update160 s.c160 data := by
  rw [exec_rmd160Update_of_active data hactive] at h
  cases h
  rfl

theorem c320_after_update {s t : State} {data : Bytes} (hactive : s.c320.phase = .active)
    (h : exec (.rmd320Update data) s = .next t) : t.c320 = update320 s.c320 data := by
  rw [exec_rmd320Update_of_active data hactive] at h
  cases h
  rfl

/-- Settles O15: past its gate the command writes `update160`, whose blocks and rest are those of `update160_spec`. -/
theorem rmd160UpdateAbsorbsItsOperand : Obligations.Rmd160UpdateAbsorbsItsOperand := by
  unfold Obligations.Rmd160UpdateAbsorbsItsOperand
  intro s data hactive hfill
  obtain ⟨blocks, hbytes, hlength, hrest, hchain, hcount⟩ := update160_spec s.c160 data hfill
  exact ⟨_, blocks, exec_rmd160Update_of_active data hactive, hbytes, hlength, hrest, hchain, hcount, hactive⟩

/-- Settles O16: past its gate the command writes `update320`, whose blocks and rest are those of `update320_spec`. -/
theorem rmd320UpdateAbsorbsItsOperand : Obligations.Rmd320UpdateAbsorbsItsOperand := by
  unfold Obligations.Rmd320UpdateAbsorbsItsOperand
  intro s data hactive hfill
  obtain ⟨blocks, hbytes, hlength, hrest, hchain, hcount⟩ := update320_spec s.c320 data hfill
  exact ⟨_, blocks, exec_rmd320Update_of_active data hactive, hbytes, hlength, hrest, hchain, hcount, hactive⟩

/-- Settles O17: the buffer of either engine is the one that `absorb` leaves, byte by byte. -/
theorem updateWritesTheseBufferBytes : Obligations.UpdateWritesTheseBufferBytes := by
  unfold Obligations.UpdateWritesTheseBufferBytes
  intro s t data
  refine ⟨fun hactive hfill hexec i hi => ?_, fun hactive hfill hexec i hi => ?_⟩
  · rw [c160_after_update hactive hexec]
    exact absorb_getElem? s.c160.buf s.c160.fill.toNat data hfill i hi
  · rw [c320_after_update hactive hexec]
    exact absorb_getElem? s.c320.buf s.c320.fill.toNat data hfill i hi

/-- Settles O19: the blocks that leave the buffer are counted, 64 bytes each, and the rest is the new fill. -/
theorem counterAndFillCountTheReceivedBytes : Obligations.CounterAndFillCountTheReceivedBytes := by
  unfold Obligations.CounterAndFillCountTheReceivedBytes
  refine ⟨fun s t hexec => ?_, fun s t hexec => ?_, fun s t data hactive hfill hexec => ?_,
    fun s t data hactive hfill hexec => ?_⟩
  · cases hexec
    rfl
  · cases hexec
    exact (by decide : counter320 init320 + init320.fill.toNat = 0)
  · obtain ⟨blocks, _, hlength, hrest, _, hcount⟩ := update160_spec s.c160 data hfill
    rw [c160_after_update hactive hexec, hcount, hrest, hlength]
    omega
  · obtain ⟨blocks, _, hlength, hrest, _, hcount⟩ := update320_spec s.c320 data hfill
    rw [c320_after_update hactive hexec, hcount, hrest, hlength]
    omega

theorem bufferState_mod (n : Nat) : bufferState (n % 64) = if n % 64 = 0 then .empty else .partly := by
  rw [bufferState, if_pos (Nat.mod_lt n (by decide))]

/-- Settles O20: the fill after an UPDATE is a remainder modulo 64, so it is never 64. -/
theorem bufferIsEmptyOrPartialBetweenCommands : Obligations.BufferIsEmptyOrPartialBetweenCommands := by
  unfold Obligations.BufferIsEmptyOrPartialBetweenCommands
  refine ⟨rfl, rfl, fun s t data => ⟨fun hactive hfill hexec => ?_, fun hactive hfill hexec => ?_⟩⟩
  · obtain ⟨_, _, _, hrest, _⟩ := update160_spec s.c160 data hfill
    rw [c160_after_update hactive hexec, hrest, bufferState_mod]
  · obtain ⟨_, _, _, hrest, _⟩ := update320_spec s.c320 data hfill
    rw [c320_after_update hactive hexec, hrest, bufferState_mod]

/-! ## FINAL -/

/-- Settles O21: past its gate the command compresses `finalBlocks160`, whose bytes are those of `finalBlocks160_spec`. -/
theorem rmd160FinalGivesTheDigest : Obligations.Rmd160FinalGivesTheDigest := by
  unfold Obligations.Rmd160FinalGivesTheDigest
  intro s hactive hfill
  obtain ⟨hbytes, hlength⟩ := finalBlocks160_spec s.c160 hfill
  exact ⟨_, finalBlocks160 s.c160, exec_rmd160Final_of_active hactive, hbytes, hlength, rfl, rfl, rfl, rfl, rfl⟩

/-- Settles O22: past its gate the command compresses `finalBlocks320`, whose bytes are those of `finalBlocks320_spec`. -/
theorem rmd320FinalGivesTheDigest : Obligations.Rmd320FinalGivesTheDigest := by
  unfold Obligations.Rmd320FinalGivesTheDigest
  intro s hactive hfill
  obtain ⟨hbytes, hlength⟩ := finalBlocks320_spec s.c320 hfill
  exact ⟨_, finalBlocks320 s.c320, exec_rmd320Final_of_active hactive, hbytes, hlength, rfl, rfl, rfl, rfl, rfl⟩

/-! ## The invariant -/

theorem Context160.ok_of_inactive {c : Context160} (h : c.phase ≠ .active) : c.Ok := fun hactive => absurd hactive h

theorem Context320.ok_of_inactive {c : Context320} (h : c.phase ≠ .active) : c.Ok := fun hactive => absurd hactive h

theorem unspecified160_ok (n : Nat) {p : Phase} (h : p ≠ .active) : (unspecified160 n p).Ok :=
  Context160.ok_of_inactive h

theorem unspecified320_ok (n : Nat) {p : Phase} (h : p ≠ .active) : (unspecified320 n p).Ok :=
  Context320.ok_of_inactive h

theorem init160_ok : init160.Ok := by decide

theorem init320_ok : init320.Ok := by decide

/-- An UPDATE leaves a remainder modulo 64 and counts whole blocks. -/
theorem update160_ok {c : Context160} (data : Bytes) (hok : c.Ok) : (update160 c data).Ok := by
  intro hactive
  obtain ⟨hfill, hmultiple⟩ := hok hactive
  obtain ⟨blocks, _, _, hrest, _, hcount⟩ := update160_spec c data hfill
  rw [hrest, hcount]
  omega

theorem update320_ok {c : Context320} (data : Bytes) (hok : c.Ok) : (update320 c data).Ok := by
  intro hactive
  obtain ⟨hfill, hmultiple⟩ := hok hactive
  obtain ⟨blocks, _, _, hrest, _, hcount⟩ := update320_spec c data hfill
  rw [hrest, hcount]
  omega

theorem exec_inv {i : Instr} {s t : State} (hinv : s.Inv) (h : exec i s = .next t) : t.Inv := by
  obtain ⟨h160, h320⟩ := hinv
  obtain rfl | rfl | heffect := exec_cases h
  · exact ⟨h160, h320⟩
  · exact ⟨h160, h320⟩
  · cases i with
    | rmd160Init => cases heffect; exact ⟨init160_ok, h320⟩
    | rmd160Update data => cases heffect.2; exact ⟨update160_ok data h160, h320⟩
    | rmd160Final => cases heffect.2; exact ⟨unspecified160_ok _ (by decide), h320⟩
    | rmd320Init => cases heffect; exact ⟨h160, init320_ok⟩
    | rmd320Update data => cases heffect.2; exact ⟨h160, update320_ok data h320⟩
    | rmd320Final => cases heffect.2; exact ⟨h160, unspecified320_ok _ (by decide)⟩
    | rmd160Hmac => cases heffect.2; exact ⟨h160, h320⟩
    | rmd320Hmac | hex => cases heffect; exact ⟨h160, h320⟩

/-- Settles O52: every command keeps both contexts' invariant, a reset leaves no context ACTIVE, and nothing else writes a
bank. -/
theorem everyStepKeepsTheContextInvariant : Obligations.EveryStepKeepsTheContextInvariant := by
  unfold Obligations.EveryStepKeepsTheContextInvariant
  intro s t hinv hstep
  obtain ⟨_, rfl⟩ | ⟨es, _, rfl⟩ | ⟨_, es, _, _, _, hexec⟩ | ⟨_, es, _, _, _, rfl⟩ := step_cases hstep
  · exact hinv
  · exact ⟨unspecified160_ok _ (by decide), unspecified320_ok _ (by decide)⟩
  · exact exec_inv (s := s.setPending es) hinv hexec
  · exact hinv

/-- Settles O51: neither context is ACTIVE at reset. -/
theorem invariantHoldsAtReset : Obligations.InvariantHoldsAtReset :=
  ⟨Context160.ok_of_inactive (by decide), Context320.ok_of_inactive (by decide)⟩

/-- Settles O49: the three fields of `State.reset`, by evaluation. -/
theorem resetLeavesBothContextsUninit : Obligations.ResetLeavesBothContextsUninit := ⟨rfl, rfl, rfl⟩

theorem phaseCode_ne_three (p : Phase) : phaseCode p ≠ 3 := by
  cases p with
  | uninit | active | spent => decide

/-- Settles O50: the code of each phase, and the gate's test. -/
theorem phasesHaveTheirCodes : Obligations.PhasesHaveTheirCodes :=
  ⟨rfl, rfl, rfl, fun p => ⟨phaseCode_ne_three p, acceptsData_iff p⟩⟩

end Sys2Proof.Machine
end

section
/-! What no response can tell apart (10_state.md R27, R31, 42_streaming.md R108): a command reads an ACTIVE context only through
its valid buffer bytes, so from similar states it answers alike. -/

namespace Sys2Proof.Machine

/-! ## Blocks are fixed by their bytes -/

theorem blockBytes_cons (b : Block) (bl : List Block) : blockBytes (b :: bl) = b.toList ++ blockBytes bl := rfl

theorem blockBytes_injective {a b : List Block} (h : blockBytes a = blockBytes b) : a = b := by
  have hlength : a.length = b.length := by
    have hbytes := congrArg List.length h
    simp only [blockBytes_length] at hbytes
    omega
  induction a generalizing b with
  | nil => exact (List.length_eq_zero_iff.mp hlength.symm).symm
  | cons x xs ih =>
    cases b with
    | nil => cases hlength
    | cons y ys =>
      rw [blockBytes_cons, blockBytes_cons] at h
      obtain ⟨hxy, hrest⟩ := List.append_inj h ((block_length x).trans (block_length y).symm)
      rw [Vector.toList_inj.mp hxy, ih hrest (Nat.succ.inj hlength)]

/-- Two cuts of the same bytes into equally many blocks and a rest are the same cut. -/
theorem blockBytes_append_inj {a b : List Block} {r r' : Bytes} (h : blockBytes a ++ r = blockBytes b ++ r')
    (hlength : a.length = b.length) : a = b ∧ r = r' := by
  obtain ⟨hblocks, hrest⟩ := List.append_inj h (by rw [blockBytes_length, blockBytes_length, hlength])
  exact ⟨blockBytes_injective hblocks, hrest⟩

/-! ## UPDATE and FINAL on similar contexts -/

theorem Context160.Similar.refl (c : Context160) : c.Similar c := ⟨rfl, fun _ => ⟨rfl, rfl, rfl, rfl⟩⟩

theorem Context320.Similar.refl (c : Context320) : c.Similar c := ⟨rfl, fun _ => ⟨rfl, rfl, rfl, rfl, rfl⟩⟩

theorem unspecified160_similar (n m : Nat) {p : Phase} (h : p ≠ .active) :
    (unspecified160 n p).Similar (unspecified160 m p) := ⟨rfl, fun hactive => absurd hactive h⟩

theorem unspecified320_similar (n m : Nat) {p : Phase} (h : p ≠ .active) :
    (unspecified320 n p).Similar (unspecified320 m p) := ⟨rfl, fun hactive => absurd hactive h⟩

/-- The counter pair is fixed by the number it stands for (R24). -/
theorem counter320_inj {c d : Context320} (h : counter320 c = counter320 d) : c.lenLo = d.lenLo ∧ c.lenHi = d.lenHi := by
  have hc := c.lenLo.isLt
  have hd := d.lenLo.isLt
  unfold counter320 at h
  exact ⟨BitVec.eq_of_toNat_eq (by omega), BitVec.eq_of_toNat_eq (by omega)⟩

/-- The same valid bytes and operand are cut into the same blocks and the same rest. -/
theorem update160_similar {c d : Context160} (data : Bytes) (hsimilar : c.Similar d) (hactive : c.phase = .active)
    (hfill : c.fill.toNat ≤ 63) : (update160 c data).Similar (update160 d data) := by
  obtain ⟨hphase, hregisters⟩ := hsimilar
  obtain ⟨hh, hf, hlen, hbuf⟩ := hregisters hactive
  obtain ⟨blocks, hbytes, hlength, hrest, hchain, hcount⟩ := update160_spec c data hfill
  obtain ⟨blocks', hbytes', hlength', hrest', hchain', hcount'⟩ := update160_spec d data (hf ▸ hfill)
  rw [← hf] at hlength' hrest'
  rw [← hbuf, ← hbytes] at hbytes'
  obtain ⟨rfl, hbuffered⟩ := blockBytes_append_inj hbytes' (hlength'.trans hlength.symm)
  refine ⟨hphase, fun _ => ⟨?_, BitVec.eq_of_toNat_eq ?_, BitVec.eq_of_toNat_eq ?_, hbuffered.symm⟩⟩
  · rw [hchain, hchain', hh]
  · rw [hrest, hrest']
  · rw [hcount, hcount', hlen]

theorem update320_similar {c d : Context320} (data : Bytes) (hsimilar : c.Similar d) (hactive : c.phase = .active)
    (hfill : c.fill.toNat ≤ 63) : (update320 c data).Similar (update320 d data) := by
  obtain ⟨hphase, hregisters⟩ := hsimilar
  obtain ⟨hh, hf, hlo, hhi, hbuf⟩ := hregisters hactive
  obtain ⟨blocks, hbytes, hlength, hrest, hchain, hcount⟩ := update320_spec c data hfill
  obtain ⟨blocks', hbytes', hlength', hrest', hchain', hcount'⟩ := update320_spec d data (hf ▸ hfill)
  rw [← hf] at hlength' hrest'
  rw [← hbuf, ← hbytes] at hbytes'
  obtain ⟨rfl, hbuffered⟩ := blockBytes_append_inj hbytes' (hlength'.trans hlength.symm)
  have hcounter : counter320 c = counter320 d := by rw [counter320, counter320, hlo, hhi]
  rw [← hcounter, ← hcount] at hcount'
  obtain ⟨hlo', hhi'⟩ := counter320_inj hcount'.symm
  refine ⟨hphase, fun _ => ⟨?_, BitVec.eq_of_toNat_eq ?_, hlo', hhi', hbuffered.symm⟩⟩
  · rw [hchain, hchain', hh]
  · rw [hrest, hrest']

theorem digest160_similar {c d : Context160} (hsimilar : c.Similar d) (hactive : c.phase = .active)
    (hfill : c.fill.toNat ≤ 63) : digest160 c = digest160 d := by
  obtain ⟨hh, hf, hlen, hbuf⟩ := hsimilar.2 hactive
  have hblocks : finalBlocks160 c = finalBlocks160 d := by
    apply blockBytes_injective
    rw [(finalBlocks160_spec c hfill).1, (finalBlocks160_spec d (hf ▸ hfill)).1, hbuf, hf, hlen]
  rw [digest160, digest160, hblocks, hh]

theorem digest320_similar {c d : Context320} (hsimilar : c.Similar d) (hactive : c.phase = .active)
    (hfill : c.fill.toNat ≤ 63) : digest320 c = digest320 d := by
  obtain ⟨hh, hf, hlo, hhi, hbuf⟩ := hsimilar.2 hactive
  have hblocks : finalBlocks320 c = finalBlocks320 d := by
    apply blockBytes_injective
    rw [(finalBlocks320_spec c hfill).1, (finalBlocks320_spec d (hf ▸ hfill)).1, hbuf, hf, counter320, counter320, hlo, hhi]
  rw [digest320, digest320, hblocks, hh]

/-! ## The streaming commands of one engine -/

/-- A streaming command of Engine-160 (R55). -/
def Streaming160 (i : Instr) : Prop := i = .rmd160Init ∨ (∃ data, i = .rmd160Update data) ∨ i = .rmd160Final

/-- A streaming command of Engine-320 (R55). -/
def Streaming320 (i : Instr) : Prop := i = .rmd320Init ∨ (∃ data, i = .rmd320Update data) ∨ i = .rmd320Final

/-- Contexts on which the streaming commands do the same, up to what no response can tell apart. -/
structure Context160.Interchangeable (c d : Context160) : Prop where
  /-- no response can tell them apart now. -/
  similar : c.Similar d
  /-- nor after an UPDATE. -/
  update : c.phase = .active → ∀ data, (update160 c data).Similar (update160 d data)
  /-- FINAL answers the same. -/
  final : c.phase = .active → digest160 c = digest160 d

/-- As `Context160.Interchangeable`, for Engine-320. -/
structure Context320.Interchangeable (c d : Context320) : Prop where
  /-- no response can tell them apart now. -/
  similar : c.Similar d
  /-- nor after an UPDATE. -/
  update : c.phase = .active → ∀ data, (update320 c data).Similar (update320 d data)
  /-- FINAL answers the same. -/
  final : c.phase = .active → digest320 c = digest320 d

theorem Context160.Interchangeable.refl (c : Context160) : c.Interchangeable c :=
  ⟨.refl c, fun _ _ => .refl _, fun _ => rfl⟩

theorem Context320.Interchangeable.refl (c : Context320) : c.Interchangeable c :=
  ⟨.refl c, fun _ _ => .refl _, fun _ => rfl⟩

theorem Context160.Similar.interchangeable {c d : Context160} (h : c.Similar d) (hok : c.Ok) : c.Interchangeable d :=
  ⟨h, fun hactive data => update160_similar data h hactive (hok hactive).1,
    fun hactive => digest160_similar h hactive (hok hactive).1⟩

theorem Context320.Similar.interchangeable {c d : Context320} (h : c.Similar d) (hok : c.Ok) : c.Interchangeable d :=
  ⟨h, fun hactive data => update320_similar data h hactive (hok hactive).1,
    fun hactive => digest320_similar h hactive (hok hactive).1⟩

/-- Two gates of the same phase open or fault together. -/
theorem whenActive_cases₂ {p q : Phase} {s s' done done' t t' : State} (hphase : p = q)
    (h : whenActive p s done = .next t) (h' : whenActive q s' done' = .next t') :
    (p = .active ∧ t = done ∧ t' = done') ∨ (t = s.raise .invalidState ∧ t' = s'.raise .invalidState) := by
  subst hphase
  obtain ⟨hactive, ht⟩ | ⟨hinactive, ht⟩ := whenActive_cases h
  · obtain ⟨_, ht'⟩ | ⟨hinactive, _⟩ := whenActive_cases h'
    · exact .inl ⟨hactive, ht, ht'⟩
    · exact absurd hactive hinactive
  · obtain ⟨hactive, _⟩ | ⟨_, ht'⟩ := whenActive_cases h'
    · exact absurd hactive hinactive
    · exact .inr ⟨ht, ht'⟩

/-- A streaming command of Engine-160 reads its own context and nothing else. -/
theorem streaming160_alike {i : Instr} {s s' t t' : State} (hi : Streaming160 i)
    (hcontexts : s.c160.Interchangeable s'.c160) (h : exec i s = .next t) (h' : exec i s' = .next t') :
    t.c160.Similar t'.c160
      ∧ ∃ response, t.responses = s.responses ++ [response] ∧ t'.responses = s'.responses ++ [response] := by
  obtain rfl | ⟨data, rfl⟩ | rfl := hi
  · cases h
    cases h'
    exact ⟨.refl _, _, rfl, rfl⟩
  · obtain ⟨hactive, rfl, rfl⟩ | ⟨rfl, rfl⟩ := whenActive_cases₂ hcontexts.similar.1 h h'
    · exact ⟨hcontexts.update hactive data, _, rfl, rfl⟩
    · exact ⟨hcontexts.similar, _, rfl, rfl⟩
  · obtain ⟨hactive, rfl, rfl⟩ | ⟨rfl, rfl⟩ := whenActive_cases₂ hcontexts.similar.1 h h'
    · refine ⟨unspecified160_similar _ _ (by decide), 0x00 :: digest160 s.c160, rfl, ?_⟩
      rw [hcontexts.final hactive]
      rfl
    · exact ⟨hcontexts.similar, _, rfl, rfl⟩

/-- A streaming command of Engine-320 reads its own context and nothing else. -/
theorem streaming320_alike {i : Instr} {s s' t t' : State} (hi : Streaming320 i)
    (hcontexts : s.c320.Interchangeable s'.c320) (h : exec i s = .next t) (h' : exec i s' = .next t') :
    t.c320.Similar t'.c320
      ∧ ∃ response, t.responses = s.responses ++ [response] ∧ t'.responses = s'.responses ++ [response] := by
  obtain rfl | ⟨data, rfl⟩ | rfl := hi
  · cases h
    cases h'
    exact ⟨.refl _, _, rfl, rfl⟩
  · obtain ⟨hactive, rfl, rfl⟩ | ⟨rfl, rfl⟩ := whenActive_cases₂ hcontexts.similar.1 h h'
    · exact ⟨hcontexts.update hactive data, _, rfl, rfl⟩
    · exact ⟨hcontexts.similar, _, rfl, rfl⟩
  · obtain ⟨hactive, rfl, rfl⟩ | ⟨rfl, rfl⟩ := whenActive_cases₂ hcontexts.similar.1 h h'
    · refine ⟨unspecified320_similar _ _ (by decide), 0x00 :: digest320 s.c320, rfl, ?_⟩
      rw [hcontexts.final hactive]
      rfl
    · exact ⟨hcontexts.similar, _, rfl, rfl⟩

theorem streaming160_c320 {i : Instr} {s t : State} (hi : Streaming160 i) (h : exec i s = .next t) : t.c320 = s.c320 := by
  obtain ⟨_, _, _, hbanks⟩ := commandsLeaveTheRestUnchanged i s t h
  obtain rfl | ⟨data, rfl⟩ | rfl := hi
  · exact hbanks
  · exact hbanks.1
  · exact hbanks

theorem streaming320_c160 {i : Instr} {s t : State} (hi : Streaming320 i) (h : exec i s = .next t) : t.c160 = s.c160 := by
  obtain ⟨_, _, _, hbanks⟩ := commandsLeaveTheRestUnchanged i s t h
  obtain rfl | ⟨data, rfl⟩ | rfl := hi
  · exact hbanks
  · exact hbanks.1
  · exact hbanks

theorem execAll_cons {i : Instr} {s t : State} (is : List Instr) (h : exec i s = .next t) :
    execAll (i :: is) s = execAll is t := by
  rw [execAll, h]

theorem execAll_pair {i j : Instr} {s t u : State} (hi : exec i s = .next t) (hj : exec j t = .next u) :
    execAll [i, j] s = .next u :=
  (execAll_cons [j] hi).trans (execAll_cons [] hj)

/-- Settles O59: each command runs alike in the state it meets first and in the one the other command leaves, since the other
command leaves its context. -/
theorem commandsOfTheTwoEnginesCommute : Obligations.CommandsOfTheTwoEnginesCommute := by
  unfold Obligations.CommandsOfTheTwoEnginesCommute
  intro s i j hi hj
  obtain ⟨t₁, hit⟩ := exec_answers i s
  obtain ⟨t, hjt⟩ := exec_answers j t₁
  obtain ⟨u₁, hju⟩ := exec_answers j s
  obtain ⟨u, hiu⟩ := exec_answers i u₁
  have h320 := streaming160_c320 hi hit
  have h160 := streaming320_c160 hj hju
  obtain ⟨hsimilar160, a, hta, hua⟩ := streaming160_alike hi (h160 ▸ .refl s.c160) hit hiu
  obtain ⟨hsimilar320, b, htb, hub⟩ := streaming320_alike hj (h320 ▸ .refl s.c320) hjt hju
  refine ⟨t, u, a, b, execAll_pair hit hjt, execAll_pair hju hiu, ?_, ?_, ?_, ?_⟩
  · rw [htb, hta, List.append_assoc]
    rfl
  · rw [hua, hub, List.append_assoc]
    rfl
  · rw [streaming320_c160 hj hjt]
    exact hsimilar160
  · rw [streaming160_c320 hi hiu]
    exact hsimilar320

/-! ## Similar states -/

theorem State.Similar.respond {s s' : State} (h : s.Similar s') (st : Status) (payload : Bytes) :
    (s.respond st payload).Similar (s'.respond st payload) := by
  obtain ⟨h160, h320, hparams, hpending, hresponses⟩ := h
  exact ⟨h160, h320, hparams, hpending, congrArg (· ++ [statusByte st :: payload]) hresponses⟩

theorem State.Similar.setPending {s s' : State} (h : s.Similar s') (es : List HostEvent) :
    (s.setPending es).Similar (s'.setPending es) := by
  obtain ⟨h160, h320, hparams, _, hresponses⟩ := h
  exact ⟨h160, h320, hparams, rfl, hresponses⟩

theorem State.Similar.resetEvent {s s' : State} (h : s.Similar s') : s.resetEvent.Similar s'.resetEvent := by
  obtain ⟨_, _, hparams, hpending, hresponses⟩ := h
  exact ⟨unspecified160_similar _ _ (by decide), unspecified320_similar _ _ (by decide), hparams, hpending, hresponses⟩

theorem exec_similar_of_streaming160 {i : Instr} {s s' t t' : State} (hi : Streaming160 i) (hinv : s.Inv)
    (hsimilar : s.Similar s') (h : exec i s = .next t) (h' : exec i s' = .next t') : t.Similar t' := by
  obtain ⟨h160, h320, hparams, hpending, hresponses⟩ := hsimilar
  obtain ⟨ht160, response, hr, hr'⟩ := streaming160_alike hi (h160.interchangeable hinv.1) h h'
  refine ⟨ht160, ?_, ?_, ?_, ?_⟩
  · rw [streaming160_c320 hi h, streaming160_c320 hi h']
    exact h320
  · rw [exec_params h, exec_params h', hparams]
  · rw [exec_pending h, exec_pending h', hpending]
  · rw [hr, hr', hresponses]

theorem exec_similar_of_streaming320 {i : Instr} {s s' t t' : State} (hi : Streaming320 i) (hinv : s.Inv)
    (hsimilar : s.Similar s') (h : exec i s = .next t) (h' : exec i s' = .next t') : t.Similar t' := by
  obtain ⟨h160, h320, hparams, hpending, hresponses⟩ := hsimilar
  obtain ⟨ht320, response, hr, hr'⟩ := streaming320_alike hi (h320.interchangeable hinv.2) h h'
  refine ⟨?_, ht320, ?_, ?_, ?_⟩
  · rw [streaming320_c160 hi h, streaming320_c160 hi h']
    exact h160
  · rw [exec_params h, exec_params h', hparams]
  · rw [exec_pending h, exec_pending h', hpending]
  · rw [hr, hr', hresponses]

/-- A command keeps two states similar: a streaming command by its engine's rule, and HMAC and HEX read no bank. -/
theorem exec_similar {i : Instr} {s s' t t' : State} (hinv : s.Inv) (hsimilar : s.Similar s') (h : exec i s = .next t)
    (h' : exec i s' = .next t') : t.Similar t' := by
  cases i with
  | rmd160Init => exact exec_similar_of_streaming160 (.inl rfl) hinv hsimilar h h'
  | rmd160Update data => exact exec_similar_of_streaming160 (.inr (.inl ⟨data, rfl⟩)) hinv hsimilar h h'
  | rmd160Final => exact exec_similar_of_streaming160 (.inr (.inr rfl)) hinv hsimilar h h'
  | rmd320Init => exact exec_similar_of_streaming320 (.inl rfl) hinv hsimilar h h'
  | rmd320Update data => exact exec_similar_of_streaming320 (.inr (.inl ⟨data, rfl⟩)) hinv hsimilar h h'
  | rmd320Final => exact exec_similar_of_streaming320 (.inr (.inr rfl)) hinv hsimilar h h'
  | rmd160Hmac key msg =>
    have hparams : s.params = s'.params := hsimilar.2.2.1
    by_cases hpresent : s.params.hmac160Present = true
    · rw [exec_rmd160Hmac_of_present key msg hpresent] at h
      rw [exec_rmd160Hmac_of_present key msg (hparams ▸ hpresent)] at h'
      cases h
      cases h'
      exact hsimilar.respond _ _
    · rw [exec_rmd160Hmac_of_absent key msg hpresent] at h
      rw [exec_rmd160Hmac_of_absent key msg (hparams ▸ hpresent)] at h'
      cases h
      cases h'
      exact hsimilar.respond _ _
  | rmd320Hmac | hex =>
    cases h
    cases h'
    exact hsimilar.respond _ _

/-- Settles O58: similar states have the same events to come, a command keeps them similar (`exec_similar`), and a reset or a
rejection writes what does not count or what is the same. -/
theorem unspecifiedRegistersAreNeverObserved : Obligations.UnspecifiedRegistersAreNeverObserved := by
  unfold Obligations.UnspecifiedRegistersAreNeverObserved
  intro s s' t hinv _ hsimilar hstep
  have ⟨_, _, hparams, hpending, _⟩ := hsimilar
  obtain ⟨hidle, rfl⟩ | ⟨es, hreset, rfl⟩ | ⟨frame, es, i, hrequest, hdecode, hexec⟩
    | ⟨frame, es, e, hrequest, hdecode, rfl⟩ := step_cases hstep
  · exact ⟨s', step_idle s' (hpending ▸ hidle), hsimilar⟩
  · exact ⟨_, step_reset s' es (hpending ▸ hreset), (hsimilar.setPending es).resetEvent⟩
  · obtain ⟨t', hexec'⟩ := exec_answers i (s'.setPending es)
    exact ⟨t', (step_command s' frame es i (hpending ▸ hrequest) (hparams ▸ hdecode)).trans hexec',
      exec_similar (s := s.setPending es) hinv (hsimilar.setPending es) hexec hexec'⟩
  · exact ⟨_, step_malformed s' frame es e (hpending ▸ hrequest) (hparams ▸ hdecode),
      (hsimilar.setPending es).respond _ _⟩

end Sys2Proof.Machine
end

section
/-! Whole messages (42_streaming.md section 3): where a hash stands after the bytes it has received, for either engine, and from
it the closed form of the digest and chunking invariance. -/

namespace Sys2Proof.Machine

/-! ## A hash over 64-byte blocks, for either engine -/

/-- Where the hash that folds `compress` from `iv` stands after the message `m`: every complete block is in the chaining state
`h` and in the counter, and `rest` is what is left. -/
def Received {n : Nat} (compress : Vector Word n → Block → Vector Word n) (iv h : Vector Word n) (rest : Bytes)
    (count : Nat) (m : Bytes) : Prop :=
  ∃ blocks : List Block, blockBytes blocks ++ rest = m ∧ rest.length < 64
    ∧ h = blocks.foldl compress iv ∧ count = 64 * blocks.length % 2 ^ 64

section
variable {n : Nat} {compress : Vector Word n → Block → Vector Word n} {iv h : Vector Word n} {rest : Bytes} {count : Nat}
  {m : Bytes}

theorem received_nil : Received compress iv iv [] 0 [] := ⟨[], rfl, by decide, rfl, rfl⟩

/-- Cutting the rest and an operand into further blocks and a new rest goes on with the message. -/
theorem Received.absorb (hreceived : Received compress iv h rest count m) {blocks : List Block} {rest' data : Bytes}
    (hbytes : blockBytes blocks ++ rest' = rest ++ data) (hrest' : rest'.length < 64) :
    Received compress iv (blocks.foldl compress h) rest' ((count + 64 * blocks.length) % 2 ^ 64) (m ++ data) := by
  obtain ⟨before, rfl, _, rfl, rfl⟩ := hreceived
  refine ⟨before ++ blocks, ?_, hrest', List.foldl_append.symm, ?_⟩
  · rw [blockBytes_append, List.append_assoc, hbytes, List.append_assoc]
  · rw [List.length_append]
    omega

/-- The zeros of R107 by the length of the rest: FINAL's two cases (R105). -/
theorem padZeros_eq (k r : Nat) (hr : r < 64) : padZeros (64 * k + r) = if r ≤ 55 then 55 - r else 119 - r := by
  unfold padZeros
  split <;> omega

/-- The rest, padded into one block or two, completes the blocks of the padded message (R107). -/
theorem Received.final (hreceived : Received compress iv h rest count m) {blocks : List Block}
    (hbytes : blockBytes blocks = rest ++ [0x80] ++ zeros (if rest.length ≤ 55 then 55 - rest.length else 119 - rest.length)
      ++ st64le (BitVec.ofNat 64 (8 * (count + rest.length))))
    (hlength : blocks.length = if rest.length ≤ 55 then 1 else 2) :
    ∃ all : List Block, blockBytes all = padMessage m ∧ all.length = (m.length + 8) / 64 + 1
      ∧ blocks.foldl compress h = all.foldl compress iv := by
  obtain ⟨before, rfl, hrest, rfl, rfl⟩ := hreceived
  have hm : (blockBytes before ++ rest).length = 64 * before.length + rest.length := by
    rw [List.length_append, blockBytes_length]
  have hfield : BitVec.ofNat 64 (8 * (64 * before.length % 2 ^ 64 + rest.length))
      = BitVec.ofNat 64 (8 * (64 * before.length + rest.length)) := by
    apply BitVec.eq_of_toNat_eq
    rw [BitVec.toNat_ofNat, BitVec.toNat_ofNat]
    omega
  refine ⟨before ++ blocks, ?_, ?_, List.foldl_append.symm⟩
  · rw [blockBytes_append, hbytes, padMessage, hm, padZeros_eq _ _ hrest, hfield]
    simp only [List.append_assoc]
  · rw [List.length_append, hlength, hm]
    split <;> omega

end

/-! ## The two engines -/

theorem buffered_length (buf : Block) {fill : BitVec 7} (h : fill.toNat ≤ 63) : (buffered buf fill).length = fill.toNat := by
  rw [buffered, List.length_take, block_length]
  omega

theorem buffered_length_lt (buf : Block) {fill : BitVec 7} (h : fill.toNat ≤ 63) : (buffered buf fill).length < 64 := by
  rw [buffered_length buf h]
  omega

/-- An Engine-160 context that has received the message `m` since INIT. -/
structure Context160.Holds (c : Context160) (m : Bytes) : Prop where
  /-- R25. -/
  fill_le : c.fill.toNat ≤ 63
  /-- the registers stand for `m`. -/
  received : Received compress160 iv160 c.h (buffered c.buf c.fill) c.len.toNat m

/-- An Engine-320 context that has received the message `m` since INIT. -/
structure Context320.Holds (c : Context320) (m : Bytes) : Prop where
  /-- R25. -/
  fill_le : c.fill.toNat ≤ 63
  /-- the registers stand for `m`. -/
  received : Received compress320 iv320 c.h (buffered c.buf c.fill) (counter320 c) m

theorem init160_holds : init160.Holds [] := ⟨by decide, received_nil⟩

theorem init320_holds : init320.Holds [] := ⟨by decide, received_nil⟩

theorem update160_holds {c : Context160} {m : Bytes} (data : Bytes) (h : c.Holds m) : (update160 c data).Holds (m ++ data) := by
  obtain ⟨blocks, hbytes, _, hrest, hchain, hcount⟩ := update160_spec c data h.fill_le
  have hfill : (update160 c data).fill.toNat ≤ 63 := by omega
  refine ⟨hfill, ?_⟩
  rw [hchain, hcount]
  exact h.received.absorb hbytes (buffered_length_lt _ hfill)

theorem update320_holds {c : Context320} {m : Bytes} (data : Bytes) (h : c.Holds m) : (update320 c data).Holds (m ++ data) := by
  obtain ⟨blocks, hbytes, _, hrest, hchain, hcount⟩ := update320_spec c data h.fill_le
  have hfill : (update320 c data).fill.toNat ≤ 63 := by omega
  refine ⟨hfill, ?_⟩
  rw [hchain, hcount]
  exact h.received.absorb hbytes (buffered_length_lt _ hfill)

theorem foldl_update160_holds {c : Context160} {m : Bytes} (chunks : List Bytes) (h : c.Holds m) :
    (chunks.foldl update160 c).Holds (m ++ chunks.flatten) := by
  induction chunks generalizing c m with
  | nil => rwa [List.flatten_nil, List.append_nil]
  | cons data chunks ih =>
    rw [List.flatten_cons, ← List.append_assoc]
    exact ih (update160_holds data h)

theorem foldl_update320_holds {c : Context320} {m : Bytes} (chunks : List Bytes) (h : c.Holds m) :
    (chunks.foldl update320 c).Holds (m ++ chunks.flatten) := by
  induction chunks generalizing c m with
  | nil => rwa [List.flatten_nil, List.append_nil]
  | cons data chunks ih =>
    rw [List.flatten_cons, ← List.append_assoc]
    exact ih (update320_holds data h)

/-- FINAL on a context that holds `m` answers the fold over the padded message. -/
theorem digest160_of_holds {c : Context160} {m : Bytes} (h : c.Holds m) :
    ∃ blocks : List Block, blockBytes blocks = padMessage m ∧ blocks.length = (m.length + 8) / 64 + 1
      ∧ digest160 c = storeWords (blocks.foldl compress160 iv160).toList := by
  obtain ⟨hbytes, hlength⟩ := finalBlocks160_spec c h.fill_le
  rw [← buffered_length c.buf h.fill_le] at hbytes hlength
  obtain ⟨blocks, hpad, hcount, hfold⟩ := h.received.final hbytes hlength
  exact ⟨blocks, hpad, hcount, by rw [digest160, compressAll160, hfold]⟩

theorem digest320_of_holds {c : Context320} {m : Bytes} (h : c.Holds m) :
    ∃ blocks : List Block, blockBytes blocks = padMessage m ∧ blocks.length = (m.length + 8) / 64 + 1
      ∧ digest320 c = storeWords (blocks.foldl compress320 iv320).toList := by
  obtain ⟨hbytes, hlength⟩ := finalBlocks320_spec c h.fill_le
  rw [← buffered_length c.buf h.fill_le] at hbytes hlength
  obtain ⟨blocks, hpad, hcount, hfold⟩ := h.received.final hbytes hlength
  exact ⟨blocks, hpad, hcount, by rw [digest320, compressAll320, hfold]⟩

/-- Settles O43: `hash160` is FINAL on a context that holds the message. -/
theorem hash160FoldsCompress160OverThePaddedMessage : Obligations.Hash160FoldsCompress160OverThePaddedMessage := by
  unfold Obligations.Hash160FoldsCompress160OverThePaddedMessage
  exact fun m => digest160_of_holds (update160_holds m init160_holds)

/-- Settles O44: `hash320` is FINAL on a context that holds the message. -/
theorem hash320FoldsCompress320OverThePaddedMessage : Obligations.Hash320FoldsCompress320OverThePaddedMessage := by
  unfold Obligations.Hash320FoldsCompress320OverThePaddedMessage
  exact fun m => digest320_of_holds (update320_holds m init320_holds)

/-- The digest depends on the message alone, not on how the context came to hold it. -/
theorem digest160_eq_hash160 {c : Context160} {m : Bytes} (h : c.Holds m) : digest160 c = hash160 m := by
  obtain ⟨blocks, hpad, _, hdigest⟩ := digest160_of_holds h
  obtain ⟨blocks', hpad', _, hhash⟩ := hash160FoldsCompress160OverThePaddedMessage m
  rw [hdigest, hhash, blockBytes_injective (hpad.trans hpad'.symm)]

theorem digest320_eq_hash320 {c : Context320} {m : Bytes} (h : c.Holds m) : digest320 c = hash320 m := by
  obtain ⟨blocks, hpad, _, hdigest⟩ := digest320_of_holds h
  obtain ⟨blocks', hpad', _, hhash⟩ := hash320FoldsCompress320OverThePaddedMessage m
  rw [hdigest, hhash, blockBytes_injective (hpad.trans hpad'.symm)]

/-! ## Command sequences -/

/-- One more response OK in front of a run's responses. -/
theorem responses_cons_replicate (responses : List Bytes) (k : Nat) (last : Bytes) :
    responses ++ [[0x00]] ++ List.replicate k [0x00] ++ [last] = responses ++ List.replicate (k + 1) [0x00] ++ [last] := by
  rw [List.replicate_succ, List.append_assoc responses, List.singleton_append]

/-- One UPDATE per chunk and FINAL, on an ACTIVE context. -/
theorem execAll_updates160_final (chunks : List Bytes) {s : State} (hactive : s.c160.phase = .active) :
    ∃ t, execAll (chunks.map Instr.rmd160Update ++ [.rmd160Final]) s = .next t
      ∧ t.responses = s.responses ++ List.replicate chunks.length [0x00]
          ++ [0x00 :: digest160 (chunks.foldl update160 s.c160)]
      ∧ t.c160.phase = .spent ∧ t.c320 = s.c320 := by
  induction chunks generalizing s with
  | nil =>
    refine ⟨_, execAll_cons [] (exec_rmd160Final_of_active hactive), ?_, rfl, rfl⟩
    rw [List.length_nil, List.replicate_zero, List.append_nil]
    rfl
  | cons data chunks ih =>
    obtain ⟨t, hrun, hresponses, hphase, hbank⟩ := ih (s := (s.setC160 (update160 s.c160 data)).respond .ok []) hactive
    exact ⟨t, (execAll_cons _ (exec_rmd160Update_of_active data hactive)).trans hrun,
      hresponses.trans (responses_cons_replicate _ _ _), hphase, hbank⟩

theorem execAll_updates320_final (chunks : List Bytes) {s : State} (hactive : s.c320.phase = .active) :
    ∃ t, execAll (chunks.map Instr.rmd320Update ++ [.rmd320Final]) s = .next t
      ∧ t.responses = s.responses ++ List.replicate chunks.length [0x00]
          ++ [0x00 :: digest320 (chunks.foldl update320 s.c320)]
      ∧ t.c320.phase = .spent ∧ t.c160 = s.c160 := by
  induction chunks generalizing s with
  | nil =>
    refine ⟨_, execAll_cons [] (exec_rmd320Final_of_active hactive), ?_, rfl, rfl⟩
    rw [List.length_nil, List.replicate_zero, List.append_nil]
    rfl
  | cons data chunks ih =>
    obtain ⟨t, hrun, hresponses, hphase, hbank⟩ := ih (s := (s.setC320 (update320 s.c320 data)).respond .ok []) hactive
    exact ⟨t, (execAll_cons _ (exec_rmd320Update_of_active data hactive)).trans hrun,
      hresponses.trans (responses_cons_replicate _ _ _), hphase, hbank⟩

/-- Settles O45: INIT holds the empty message, each UPDATE appends its chunk, and FINAL's digest depends on the message alone. -/
theorem chunkingDoesNotChangeDigest160 : Obligations.ChunkingDoesNotChangeDigest160 := by
  unfold Obligations.ChunkingDoesNotChangeDigest160
  intro s chunks
  obtain ⟨t, hrun, hresponses, hphase, hbank⟩ :=
    execAll_updates160_final chunks (s := (s.setC160 init160).respond .ok []) rfl
  have hdigest : digest160 (chunks.foldl update160 init160) = hash160 chunks.flatten :=
    digest160_eq_hash160 (foldl_update160_holds chunks init160_holds)
  rw [respond_c160, setC160_c160, hdigest] at hresponses
  exact ⟨t, (execAll_cons _ rfl).trans hrun, hresponses.trans (responses_cons_replicate _ _ _), hphase, hbank⟩

/-- Settles O46: as O45, over the other bank. -/
theorem chunkingDoesNotChangeDigest320 : Obligations.ChunkingDoesNotChangeDigest320 := by
  unfold Obligations.ChunkingDoesNotChangeDigest320
  intro s chunks
  obtain ⟨t, hrun, hresponses, hphase, hbank⟩ :=
    execAll_updates320_final chunks (s := (s.setC320 init320).respond .ok []) rfl
  have hdigest : digest320 (chunks.foldl update320 init320) = hash320 chunks.flatten :=
    digest320_eq_hash320 (foldl_update320_holds chunks init320_holds)
  rw [respond_c320, setC320_c320, hdigest] at hresponses
  exact ⟨t, (execAll_cons _ rfl).trans hrun, hresponses.trans (responses_cons_replicate _ _ _), hphase, hbank⟩

/-- The four commands by which the host hashes two strings in a row (43_hmac.md section 3). -/
theorem execAll_hash320_of_two (s : State) (a b : Bytes) :
    ∃ t, execAll [.rmd320Init, .rmd320Update a, .rmd320Update b, .rmd320Final] s = .next t
      ∧ t.responses = s.responses ++ [[0x00], [0x00], [0x00], 0x00 :: hash320 (a ++ b)] := by
  obtain ⟨t, hrun, hresponses, _, _⟩ := chunkingDoesNotChangeDigest320 s [a, b]
  rw [List.flatten_cons, List.flatten_singleton, List.append_assoc] at hresponses
  exact ⟨t, hrun, hresponses⟩

/-- Settles O47: each of the two hash sequences answers the hash of its pad and its second string, and the command's tag is made
of the same two hashes. -/
theorem rmd320HmacEqualsItsCommandSequence : Obligations.Rmd320HmacEqualsItsCommandSequence := by
  unfold Obligations.Rmd320HmacEqualsItsCommandSequence
  rintro s key msg kred rfl
  obtain ⟨t, hinner, ht⟩ := execAll_hash320_of_two s (hmacPad (reduceKey hash320 key) 0x36) msg
  obtain ⟨u, houter, hu⟩ := execAll_hash320_of_two t (hmacPad (reduceKey hash320 key) 0x5c)
    (hash320 (hmacPad (reduceKey hash320 key) 0x36 ++ msg))
  exact ⟨_, _, t, u, hinner, ht, houter, hu, exec_rmd320Hmac key msg s⟩

/-- Settles O48: the four digests, by evaluation. -/
theorem digestsOfTheEmptyMessageAndAbc : Obligations.DigestsOfTheEmptyMessageAndAbc := by
  unfold Obligations.DigestsOfTheEmptyMessageAndAbc
  decide +kernel

end Sys2Proof.Machine
end

section
/-! The length encodings compared (42_streaming.md R94, R100), RMD160.HMAC and equivalent keys (43_hmac.md sections 2 and 3), and
the inverse of HEX (44_hex.md). -/

namespace Sys2Proof.Machine

/-- Settles O41: both length fields are `ST64LE` of eight times the length. -/
theorem lengthEncodingsOfTheTwoEnginesAgree : Obligations.LengthEncodingsOfTheTwoEnginesAgree := by
  unfold Obligations.LengthEncodingsOfTheTwoEnginesAgree
  intro n
  have hn := n.isLt
  have h160 : bitlen160 n = st64le (BitVec.ofNat 64 (8 * n.toNat)) :=
    congrArg st64le (BitVec.eq_of_toNat_eq (by rw [shiftLeft_three_toNat, BitVec.toNat_ofNat, Nat.mul_comm]))
  have hpair : (BitVec.ofNat 32 (n.toNat / 2 ^ 32)).toNat * 2 ^ 32 + (BitVec.ofNat 32 (n.toNat % 2 ^ 32)).toNat
      = n.toNat := by
    rw [BitVec.toNat_ofNat, BitVec.toNat_ofNat]
    omega
  exact ⟨by rw [h160, bitlen320_value, hpair], h160⟩

theorem hash160_length_le (m : Bytes) : (hash160 m).length ≤ 64 :=
  (hash160_length m).trans_le (by decide)

/-- Settles O25: past its parameter the command answers the construction over `hash160`, with its pads by index. -/
theorem rmd160HmacGivesTheTagWhenPresent : Obligations.Rmd160HmacGivesTheTagWhenPresent := by
  unfold Obligations.Rmd160HmacGivesTheTagWhenPresent
  rintro s key msg kred hpresent rfl
  rw [exec_rmd160Hmac_of_present key msg hpresent, hmacTag_eq_hmacPad hash160_length_le]
  rfl

/-! ## Equivalent keys -/

/-- A hash's construction sees a key only as its 64 bytes `K0`. -/
theorem hmacTag_congr {H : Bytes → Bytes} {key key' : Bytes}
    (h : zeroExtend (reduceKey H key) = zeroExtend (reduceKey H key')) (msg : Bytes) :
    hmacTag H key msg = hmacTag H key' msg := by
  rw [hmacTag, h, hmacTag]

theorem reduceKey_of_le (H : Bytes → Bytes) {key : Bytes} (h : key.length ≤ 64) : reduceKey H key = key :=
  if_neg (Nat.not_lt.mpr h)

/-- Zeros behind a key are what zero extension would put there. -/
theorem zeroExtend_append_zeros {key : Bytes} {k : Nat} (h : key.length + k ≤ 64) :
    zeroExtend (key ++ zeros k) = zeroExtend key := by
  have hzeros : k + (64 - (key.length + k)) = 64 - key.length := by omega
  rw [zeroExtend, zeroExtend, List.append_assoc, List.length_append, zeros_length, zeros, zeros,
    List.replicate_append_replicate, hzeros, zeros]

theorem hmacTag_append_zeros (H : Bytes → Bytes) {key : Bytes} {k : Nat} (h : key.length + k ≤ 64) (msg : Bytes) :
    hmacTag H (key ++ zeros k) msg = hmacTag H key msg := by
  apply hmacTag_congr
  have hlength : (key ++ zeros k).length ≤ 64 := by rwa [List.length_append, zeros_length]
  rw [reduceKey_of_le H hlength, reduceKey_of_le H (by omega), zeroExtend_append_zeros h]

/-- A long key is used as its digest, which is short. -/
theorem hmacTag_digest_of_key {H : Bytes → Bytes} (hH : ∀ m, (H m).length ≤ 64) {key : Bytes} (h : 64 < key.length)
    (msg : Bytes) : hmacTag H (H key) msg = hmacTag H key msg := by
  apply hmacTag_congr
  have hlong : reduceKey H key = H key := if_pos h
  rw [reduceKey_of_le H (hH key), hlong]

theorem exec_rmd320Hmac_congr {key key' msg : Bytes} (s : State)
    (h : hmacTag hash320 key msg = hmacTag hash320 key' msg) :
    exec (.rmd320Hmac key msg) s = exec (.rmd320Hmac key' msg) s := by
  rw [exec, exec, execRmd320Hmac, execRmd320Hmac, h]

theorem exec_rmd160Hmac_congr {key key' msg : Bytes} (s : State)
    (h : hmacTag hash160 key msg = hmacTag hash160 key' msg) :
    exec (.rmd160Hmac key msg) s = exec (.rmd160Hmac key' msg) s := by
  rw [exec, exec, execRmd160Hmac, execRmd160Hmac, h]

/-- Settles O27: both commands depend on the key through the tag, and the tag through `K0`. -/
theorem equivalentKeysGiveTheSameTag : Obligations.EquivalentKeysGiveTheSameTag := by
  unfold Obligations.EquivalentKeysGiveTheSameTag
  refine fun s key msg => ⟨fun k hk => ⟨?_, ?_⟩, fun hlong => ⟨?_, ?_⟩⟩
  · exact exec_rmd320Hmac_congr s (hmacTag_append_zeros hash320 hk msg)
  · exact exec_rmd160Hmac_congr s (hmacTag_append_zeros hash160 hk msg)
  · exact exec_rmd320Hmac_congr s (hmacTag_digest_of_key hash320_length_le hlong msg)
  · exact exec_rmd160Hmac_congr s (hmacTag_digest_of_key hash160_length_le hlong msg)

/-! ## The inverse of HEX -/

/-- The value of a lowercase hexadecimal digit (R119 read backwards). -/
def digitValue (c : Byte) : Nat := if c.toNat ≤ 0x39 then c.toNat - 0x30 else c.toNat - 0x61 + 10

theorem digitValue_nib {v : Byte} (hv : v.toNat ≤ 15) : digitValue (nib v) = v.toNat := by
  rw [digitValue, toNat_nib hv]
  split_ifs <;> omega

theorem nib_isDigit {v : Byte} (hv : v.toNat ≤ 15) :
    (0x30 ≤ (nib v).toNat ∧ (nib v).toNat ≤ 0x39) ∨ (0x61 ≤ (nib v).toNat ∧ (nib v).toNat ≤ 0x66) := by
  rw [toNat_nib hv]
  split_ifs <;> omega

theorem toNat_highNibble_le (b : Byte) : (b >>> 4).toNat ≤ 15 := by
  have hb := b.isLt
  rw [toNat_highNibble]
  omega

theorem toNat_lowNibble_le (b : Byte) : (b &&& 0x0F).toNat ≤ 15 := by
  rw [toNat_lowNibble]
  omega

theorem hexChars_isDigit {data : Bytes} {c : Byte} (h : c ∈ hexChars data) :
    (0x30 ≤ c.toNat ∧ c.toNat ≤ 0x39) ∨ (0x61 ≤ c.toNat ∧ c.toNat ≤ 0x66) := by
  obtain ⟨b, _, hc⟩ := List.mem_flatMap.mp h
  obtain rfl | hc := List.mem_cons.mp hc
  · exact nib_isDigit (toNat_highNibble_le b)
  · obtain rfl := List.mem_singleton.mp hc
    exact nib_isDigit (toNat_lowNibble_le b)

/-- The two characters of a place are those of one byte, whose value they tell. -/
theorem getElem?_of_hexChars {data : Bytes} {i : Nat} {hi lo : Byte} (hhi : (hexChars data)[2 * i]? = some hi)
    (hlo : (hexChars data)[2 * i + 1]? = some lo) :
    ∃ b, data[i]? = some b ∧ b.toNat = 16 * digitValue hi + digitValue lo := by
  obtain ⟨hhigh, hlow⟩ := getElem?_hexChars data i
  obtain ⟨b, hb, rfl⟩ := Option.map_eq_some_iff.mp (hhigh.symm.trans hhi)
  rw [hlow, hb] at hlo
  cases hlo
  refine ⟨b, hb, ?_⟩
  rw [digitValue_nib (toNat_highNibble_le b), digitValue_nib (toNat_lowNibble_le b), toNat_highNibble, toNat_lowNibble]
  omega

theorem hexChars_cons (b : Byte) (bs : Bytes) : hexChars (b :: bs) = nib (b >>> 4) :: nib (b &&& 0x0F) :: hexChars bs := rfl

theorem byte_eq_of_nibs {a b : Byte} (hhigh : nib (a >>> 4) = nib (b >>> 4))
    (hlow : nib (a &&& 0x0F) = nib (b &&& 0x0F)) : a = b := by
  have hdiv := congrArg digitValue hhigh
  have hmod := congrArg digitValue hlow
  rw [digitValue_nib (toNat_highNibble_le a), digitValue_nib (toNat_highNibble_le b), toNat_highNibble,
    toNat_highNibble] at hdiv
  rw [digitValue_nib (toNat_lowNibble_le a), digitValue_nib (toNat_lowNibble_le b), toNat_lowNibble,
    toNat_lowNibble] at hmod
  apply BitVec.eq_of_toNat_eq
  omega

theorem hexChars_injective {a b : Bytes} (h : hexChars a = hexChars b) : a = b := by
  induction a generalizing b with
  | nil =>
    cases b with
    | nil => rfl
    | cons y ys => cases h
  | cons x xs ih =>
    cases b with
    | nil => cases h
    | cons y ys =>
      rw [hexChars_cons, hexChars_cons] at h
      obtain ⟨hhigh, h⟩ := List.cons.inj h
      obtain ⟨hlow, hrest⟩ := List.cons.inj h
      rw [byte_eq_of_nibs hhigh hlow, ih hrest]

/-- Settles O29: `digitValue` undoes `nib` on the two nibbles of a byte, and HEX works byte by byte. -/
theorem hexIsInvertibleAndBytewise : Obligations.HexIsInvertibleAndBytewise := by
  unfold Obligations.HexIsInvertibleAndBytewise
  exact ⟨fun _ _ => hexChars_isDigit, fun _ _ => hexChars_injective, fun _ _ => List.flatMap_append,
    fun _ _ _ _ => getElem?_of_hexChars⟩

end Sys2Proof.Machine
end

section
/-! The compression functions (40_compress160.md, 41_compress320.md): the two lines, the output combination, and the role and slot
formulations (R85 to R87). In slots the values stay put and the roles move down by one slot, modulo 5, at each step; read by
role, a slot round is sixteen steps of its line, and the slot swaps are the role swaps. -/

namespace Sys2Proof.Machine

/-- Settles O32: the four tables, by evaluation. -/
theorem tablesHaveTheirChecksums : Obligations.TablesHaveTheirChecksums := by
  unfold Obligations.TablesHaveTheirChecksums
  decide +kernel

/-- Settles O33: the working registers and outputs of both engines on one block, by evaluation. -/
theorem workingRegistersOnTheAbcBlock : Obligations.WorkingRegistersOnTheAbcBlock := by
  unfold Obligations.WorkingRegistersOnTheAbcBlock
  decide +kernel

theorem toList_getD {n : Nat} (v : Vector Word n) {k : Nat} (hk : k < n) : v.toList.getD k 0 = v[k] := by
  simp [hk]

/-- Settles O34: the five places of `combine160` are the rule's, read at each index. -/
theorem compress160CombinesAcrossLinesByIndex : Obligations.Compress160CombinesAcrossLinesByIndex := by
  unfold Obligations.Compress160CombinesAcrossLinesByIndex
  intro h blk i hi p
  rw [toList_getD h (Nat.mod_lt _ (by decide))]
  obtain rfl | rfl | rfl | rfl | rfl : i = 0 ∨ i = 1 ∨ i = 2 ∨ i = 3 ∨ i = 4 := by omega
  all_goals rfl

/-! ## Lines -/

/-- The steps `first .. first + n − 1` of one line. -/
def lineSteps (P : LineParams) (x : Vector Word 16) (first n : Nat) (l : Line) : Line :=
  (List.range n).foldl (fun l t => lineStep P x (first + t) l) l

theorem lineSteps_succ (P : LineParams) (x : Vector Word 16) (first n : Nat) (l : Line) :
    lineSteps P x first (n + 1) l = lineStep P x (first + n) (lineSteps P x first n l) := by
  rw [lineSteps, List.range_succ, List.foldl_append]
  rfl

/-- Sixteen steps of both lines, each on its own (R76, R77). -/
def linesRound (x : Vector Word 16) (q : Nat) (p : Lines) : Lines :=
  ⟨lineSteps leftParams x (16 * q) 16 p.left, lineSteps rightParams x (16 * q) 16 p.right⟩

/-- In Engine-160 no step reads the other line. -/
theorem linesAfter160_add (x : Vector Word 16) (start : Lines) (first n : Nat) :
    linesAfter160 x start (first + n) = ⟨lineSteps leftParams x first n (linesAfter160 x start first).left,
      lineSteps rightParams x first n (linesAfter160 x start first).right⟩ := by
  induction n with
  | zero => rfl
  | succ n ih => rw [← Nat.add_assoc, linesAfter160, ih, lineSteps_succ, lineSteps_succ, bothSteps]

theorem linesAfter160_round (x : Vector Word 16) (start : Lines) (q : Nat) :
    linesAfter160 x start (16 * (q + 1)) = linesRound x q (linesAfter160 x start (16 * q)) :=
  linesAfter160_add x start (16 * q) 16

/-- Settles O35: after any number of steps each line is `lineSteps` of its own start. -/
theorem linesOfEngine160AreIndependent : Obligations.LinesOfEngine160AreIndependent := by
  unfold Obligations.LinesOfEngine160AreIndependent
  intro x l r l' r' n
  have hlines (start : Lines) := linesAfter160_add x start 0 n
  rw [Nat.zero_add] at hlines
  simp only [hlines, linesAfter160, and_self]

/-- The swaps of R82 follow the last step of a round. -/
theorem swapAfter_of_not_last {j : Nat} (hj : j % 16 ≠ 15) (p : Lines) : swapAfter j p = p := by
  unfold swapAfter
  split
  case h_6 => rfl
  all_goals exact absurd rfl hj

theorem linesAfter320_within (x : Vector Word 16) (start : Lines) (q n : Nat) (hn : n ≤ 15) :
    linesAfter320 x start (16 * q + n) = ⟨lineSteps leftParams x (16 * q) n (linesAfter320 x start (16 * q)).left,
      lineSteps rightParams x (16 * q) n (linesAfter320 x start (16 * q)).right⟩ := by
  induction n with
  | zero => rfl
  | succ n ih =>
    rw [← Nat.add_assoc, linesAfter320, swapAfter_of_not_last (by omega), ih (by omega), lineSteps_succ, lineSteps_succ,
      bothSteps]

theorem linesAfter320_round (x : Vector Word 16) (start : Lines) (q : Nat) :
    linesAfter320 x start (16 * (q + 1))
      = swapAfter (16 * q + 15) (linesRound x q (linesAfter320 x start (16 * q))) := by
  have hlast : 16 * (q + 1) = 16 * q + 15 + 1 := by omega
  rw [hlast, linesAfter320, linesAfter320_within x start q 15 (by decide), bothSteps, ← lineSteps_succ, ← lineSteps_succ,
    linesRound]

/-! ## Slots -/

theorem slotRead_set_same (w : Vector Word 10) {k : Nat} (hk : k < 10) (v : Word) :
    slotRead (w.setIfInBounds k v) k = v := by
  simp [slotRead, hk]

theorem slotRead_set_ne (w : Vector Word 10) {k m : Nat} (hkm : k ≠ m) (v : Word) :
    slotRead (w.setIfInBounds k v) m = slotRead w m := by
  simp [slotRead, List.getD_eq_getElem?_getD, List.getElem?_set_ne hkm]

theorem slotOf_range (b i j : Nat) : b ≤ slotOf b i j ∧ slotOf b i j < b + 5 := by
  unfold slotOf
  omega

/-- The roles of one line stand in different slots. -/
theorem slotOf_ne {b i k j : Nat} (hi : i < 5) (hk : k < 5) (hik : i ≠ k) : slotOf b i j ≠ slotOf b k j := by
  unfold slotOf
  omega

/-- After a step a role stands where the role before it stood (R85). -/
theorem slotOf_step (b i j : Nat) : slotOf b (i + 1) (j + 1) = slotOf b i j := by
  unfold slotOf
  omega

theorem slotOf_zero_step (b j : Nat) : slotOf b 0 (j + 1) = slotOf b 4 j := by
  unfold slotOf
  omega

/-- The line that stands in the five slots from base `b` before step `j`, read by role. -/
def slotLine (b j : Nat) (w : Vector Word 10) : Line :=
  ⟨slotRead w (slotOf b 0 j), slotRead w (slotOf b 1 j), slotRead w (slotOf b 2 j), slotRead w (slotOf b 3 j),
    slotRead w (slotOf b 4 j)⟩

/-- Both lines of ten slots before step `j`. -/
def slotLines (j : Nat) (w : Vector Word 10) : Lines := ⟨slotLine 0 j w, slotLine 5 j w⟩

theorem slotRead_set_role {b i k : Nat} (hb : b ≤ 5) (hi : i < 5) (hk : k < 5) (j : Nat) (w : Vector Word 10) (v : Word) :
    slotRead (w.setIfInBounds (slotOf b i j) v) (slotOf b k j) = if i = k then v else slotRead w (slotOf b k j) := by
  split_ifs with hik
  · subst hik
    have hrange := slotOf_range b i j
    exact slotRead_set_same w (by omega) v
  · exact slotRead_set_ne w (slotOf_ne hi hk hik) v

/-- A slot step is a role step of the line it works on. -/
theorem slotLine_slotStep (P : LineParams) (x : Vector Word 16) {b : Nat} (hb : b ≤ 5) (j : Nat) (w : Vector Word 10) :
    slotLine b (j + 1) (slotStep P x b j w) = lineStep P x j (slotLine b j w) := by
  simp [slotLine, slotStep, lineStep, roleStep, slotOf_zero_step, slotOf_step b 0, slotOf_step b 1, slotOf_step b 2,
    slotOf_step b 3, slotRead_set_role hb]

/-- A slot step writes no slot outside its own five. -/
theorem slotRead_slotStep (P : LineParams) (x : Vector Word 16) {b k : Nat} (hk : k < b ∨ b + 5 ≤ k) (j : Nat)
    (w : Vector Word 10) : slotRead (slotStep P x b j w) k = slotRead w k := by
  have hne (i : Nat) : slotOf b i j ≠ k := by
    have hrange := slotOf_range b i j
    omega
  rw [slotStep, slotRead_set_ne _ (hne 2), slotRead_set_ne _ (hne 0)]

/-- The steps `first .. first + n − 1` on the slots from base `b`. -/
def slotSteps (P : LineParams) (x : Vector Word 16) (b first n : Nat) (w : Vector Word 10) : Vector Word 10 :=
  (List.range n).foldl (fun w t => slotStep P x b (first + t) w) w

theorem slotSteps_succ (P : LineParams) (x : Vector Word 16) (b first n : Nat) (w : Vector Word 10) :
    slotSteps P x b first (n + 1) w = slotStep P x b (first + n) (slotSteps P x b first n w) := by
  rw [slotSteps, List.range_succ, List.foldl_append]
  rfl

theorem slotRound_eq (P : LineParams) (x : Vector Word 16) (b q : Nat) (w : Vector Word 10) :
    slotRound P x b q w = slotSteps P x b (16 * q) 16 w := rfl

theorem slotLine_slotSteps (P : LineParams) (x : Vector Word 16) {b : Nat} (hb : b ≤ 5) (first n : Nat)
    (w : Vector Word 10) :
    slotLine b (first + n) (slotSteps P x b first n w) = lineSteps P x first n (slotLine b first w) := by
  induction n with
  | zero => rfl
  | succ n ih => rw [slotSteps_succ, ← Nat.add_assoc, slotLine_slotStep P x hb, ih, lineSteps_succ]

theorem slotRead_slotSteps (P : LineParams) (x : Vector Word 16) {b k : Nat} (hk : k < b ∨ b + 5 ≤ k) (first n : Nat)
    (w : Vector Word 10) : slotRead (slotSteps P x b first n w) k = slotRead w k := by
  induction n with
  | zero => rfl
  | succ n ih => rw [slotSteps_succ, slotRead_slotStep P x hk, ih]

/-- The line in the other five slots stays as it is. -/
theorem slotLine_slotSteps_other (P : LineParams) (x : Vector Word 16) {b b' : Nat} (hb : b' + 5 ≤ b ∨ b + 5 ≤ b')
    (first n j : Nat) (w : Vector Word 10) : slotLine b' j (slotSteps P x b first n w) = slotLine b' j w := by
  have hread (i : Nat) : slotRead (slotSteps P x b first n w) (slotOf b' i j) = slotRead w (slotOf b' i j) := by
    have hrange := slotOf_range b' i j
    exact slotRead_slotSteps P x (by omega) first n w
  simp only [slotLine, hread]

/-- Two document rounds in slots are one round of both lines. -/
theorem slotLines_slotRoundPair (x : Vector Word 16) (q : Nat) (w : Vector Word 10) :
    slotLines (16 * (q + 1)) (slotRoundPair x q w) = linesRound x q (slotLines (16 * q) w) := by
  have hnext : 16 * (q + 1) = 16 * q + 16 := by omega
  rw [slotLines, slotRoundPair, slotRound_eq, slotRound_eq, slotLine_slotSteps_other _ _ (.inl (by decide)), hnext,
    slotLine_slotSteps _ _ (by decide), slotLine_slotSteps _ _ (by decide),
    slotLine_slotSteps_other _ _ (.inr (by decide)), linesRound, slotLines]

theorem slotRead_slotSwap {q : Nat} (hq : q < 5) (w : Vector Word 10) (k : Nat) :
    slotRead (slotSwap q w) k
      = if k = q + 5 then slotRead w q else if k = q then slotRead w (q + 5) else slotRead w k := by
  rw [slotSwap]
  split_ifs with hright hleft
  · subst hright
    exact slotRead_set_same _ (by omega) _
  · subst hleft
    rw [slotRead_set_ne _ (by omega), slotRead_set_same _ (by omega)]
  · rw [slotRead_set_ne _ (Ne.symm hright), slotRead_set_ne _ (Ne.symm hleft)]

/-- The slots 0 to 4 hold the roles B, D, A, C, E when it is their turn to be swapped (R83, R86). -/
theorem slotLines_slotSwap {q : Nat} (hq : q < 5) (w : Vector Word 10) :
    slotLines (16 * (q + 1)) (slotSwap q w) = swapAfter (16 * q + 15) (slotLines (16 * (q + 1)) w) := by
  simp only [slotLines, slotLine, slotRead_slotSwap hq]
  obtain rfl | rfl | rfl | rfl | rfl : q = 0 ∨ q = 1 ∨ q = 2 ∨ q = 3 ∨ q = 4 := by omega
  all_goals rfl

/-! ## The two formulations -/

/-- The slots of Engine-160 after `n` rounds of both lines. -/
def slotsAfter160 (x : Vector Word 16) (w : Vector Word 10) (n : Nat) : Vector Word 10 :=
  (List.range n).foldl (fun w q => slotRoundPair x q w) w

/-- The slots of Engine-320 after `n` rounds of both lines and the swaps that follow them. -/
def slotsAfter320 (x : Vector Word 16) (w : Vector Word 10) (n : Nat) : Vector Word 10 :=
  (List.range n).foldl (fun w q => slotSwap q (slotRoundPair x q w)) w

theorem slotsAfter160_succ (x : Vector Word 16) (w : Vector Word 10) (n : Nat) :
    slotsAfter160 x w (n + 1) = slotRoundPair x n (slotsAfter160 x w n) := by
  rw [slotsAfter160, List.range_succ, List.foldl_append, List.foldl_cons, List.foldl_nil, slotsAfter160]

theorem slotsAfter320_succ (x : Vector Word 16) (w : Vector Word 10) (n : Nat) :
    slotsAfter320 x w (n + 1) = slotSwap n (slotRoundPair x n (slotsAfter320 x w n)) := by
  rw [slotsAfter320, List.range_succ, List.foldl_append, List.foldl_cons, List.foldl_nil, slotsAfter320]

theorem slotLines_slotsAfter160 (x : Vector Word 16) (w : Vector Word 10) (n : Nat) :
    slotLines (16 * n) (slotsAfter160 x w n) = linesAfter160 x (slotLines 0 w) (16 * n) := by
  induction n with
  | zero => rfl
  | succ n ih => rw [slotsAfter160_succ, slotLines_slotRoundPair, ih, linesAfter160_round]

theorem slotLines_slotsAfter320 (x : Vector Word 16) (w : Vector Word 10) {n : Nat} (hn : n ≤ 5) :
    slotLines (16 * n) (slotsAfter320 x w n) = linesAfter320 x (slotLines 0 w) (16 * n) := by
  induction n with
  | zero => rfl
  | succ n ih =>
    rw [slotsAfter320_succ, slotLines_slotSwap hn, slotLines_slotRoundPair, ih (Nat.le_of_succ_le hn),
      linesAfter320_round]

/-- Whenever the number of steps is a multiple of 5, every role is back in the slot it started from. -/
theorem slotLine_home (b : Nat) {j : Nat} (hj : j % 5 = 0) (w : Vector Word 10) :
    slotLine b j w = ⟨slotRead w b, slotRead w (b + 1), slotRead w (b + 2), slotRead w (b + 3), slotRead w (b + 4)⟩ := by
  have hslot {i : Nat} (hi : i < 5) : slotOf b i j = b + i := by
    unfold slotOf
    omega
  rw [slotLine, hslot (by decide), hslot (by decide), hslot (by decide), hslot (by decide), hslot (by decide), Nat.add_zero]

theorem slotRead_eq_getElem (w : Vector Word 10) {k : Nat} (hk : k < 10) : slotRead w k = w[k] := toList_getD w hk

/-- The ten slots that Engine-160 starts from (R78, R79). -/
def startSlots160 (h : Vector Word 5) : Vector Word 10 := #v[h[0], h[1], h[2], h[3], h[4], h[0], h[1], h[2], h[3], h[4]]

theorem slotLines_startSlots160 (h : Vector Word 5) : slotLines 0 (startSlots160 h) = setup160 h := by
  rw [slotLines, slotLine_home 0 rfl, slotLine_home 5 rfl]
  rfl

theorem slotLines_zero (h : Vector Word 10) : slotLines 0 h = setup320 h := by
  rw [slotLines, slotLine_home 0 rfl, slotLine_home 5 rfl]
  simp only [Nat.reduceAdd, slotRead_eq_getElem, Nat.reduceLT, setup320]

/-- R79's sum over the slots is R78's over the roles. -/
theorem combine160_slotLines (h : Vector Word 5) (w : Vector Word 10) :
    combine160 h (slotLines 80 w) = Vector.ofFn fun i => h[(i.val + 1) % 5]'(Nat.mod_lt _ (by decide))
      + slotRead w ((i.val + 2) % 5) + slotRead w (5 + (i.val + 3) % 5) := by
  rw [slotLines, slotLine_home 0 rfl, slotLine_home 5 rfl]
  apply Vector.ext
  intro i hi
  rw [Vector.getElem_ofFn]
  obtain rfl | rfl | rfl | rfl | rfl : i = 0 ∨ i = 1 ∨ i = 2 ∨ i = 3 ∨ i = 4 := by omega
  all_goals simp [combine160]

/-- R86's sum over the slots is R82's over the roles. -/
theorem combine320_slotLines (h w : Vector Word 10) :
    combine320 h (slotLines 80 w) = Vector.ofFn fun i => h[i] + slotRead w i.val := by
  rw [slotLines, slotLine_home 0 rfl, slotLine_home 5 rfl]
  apply Vector.ext
  intro i hi
  rw [Vector.getElem_ofFn]
  obtain rfl | rfl | rfl | rfl | rfl | rfl | rfl | rfl | rfl | rfl :
    i = 0 ∨ i = 1 ∨ i = 2 ∨ i = 3 ∨ i = 4 ∨ i = 5 ∨ i = 6 ∨ i = 7 ∨ i = 8 ∨ i = 9 := by omega
  all_goals rfl

/-- Settles O36: five rounds of the slots hold, read by role, the lines after 80 steps, and both sums are the same. -/
theorem compress160RoleAndSlotFormsAgree : Obligations.Compress160RoleAndSlotFormsAgree := by
  unfold Obligations.Compress160RoleAndSlotFormsAgree
  intro h blk
  have hlines := slotLines_slotsAfter160 (messageWords blk) (startSlots160 h) 5
  rw [slotLines_startSlots160] at hlines
  calc compress160 h blk
      = combine160 h (slotLines 80 (slotsAfter160 (messageWords blk) (startSlots160 h) 5)) :=
        congrArg (combine160 h) hlines.symm
    _ = compress160Slots h blk := combine160_slotLines h _

/-- Settles O37: as O36, with the swap of two slots after each round as the swap of a role. -/
theorem compress320RoleAndSlotFormsAgree : Obligations.Compress320RoleAndSlotFormsAgree := by
  unfold Obligations.Compress320RoleAndSlotFormsAgree
  intro h blk
  have hlines := slotLines_slotsAfter320 (messageWords blk) h (Nat.le_refl 5)
  rw [slotLines_zero] at hlines
  calc compress320 h blk
      = combine320 h (slotLines 80 (slotsAfter320 (messageWords blk) h 5)) := congrArg (combine320 h) hlines.symm
    _ = compress320Slots h blk := combine320_slotLines h _

end Sys2Proof.Machine
end
